-- ==== Sys2Proof/Word.lean ====
section
/-! DEFINITION. The word types of the engine: unsigned bit vectors of the widths of rules R2 and R9, bit 0 the least
significant (rule R11), and the two small records made of lanes. -/

namespace Sys2Proof

/-- A 4-bit unit of data, the index and the value of a substitution table (rules R14, R120). -/
abbrev Nibble := BitVec 4

/-- A bit position 0 to 31, the value of a permutation table (rule R122). -/
abbrev BitPos := BitVec 5

/-- A lane, 16 bits (rule R9, `LANE_W`). -/
abbrev Lane := BitVec 16

/-- A round key or a pair of lanes, 32 bits (rule R9, `RK_W`). -/
abbrev Word32 := BitVec 32

/-- A plaintext or ciphertext block, 64 bits (rule R9, `BLOCK_W`). -/
abbrev Block := BitVec 64

/-- A master key or key-schedule state, 128 bits (rule R9, `KEY_W`). -/
abbrev Key := BitVec 128

/-- The four lanes of the block in work (rule R23). -/
structure Lanes where
  l0 : Lane
  l1 : Lane
  r0 : Lane
  r1 : Lane
  deriving DecidableEq, Repr, Inhabited

/-- One ARX history record, 48 bits: the F1 input, that input rotated left by 5, and by 1 (rules R28, R161). -/
structure HistRec where
  x : Lane
  a : Lane
  b : Lane
  deriving DecidableEq, Repr, Inhabited

/-- The round-key file: 20 entries of 32 bits, indexed by round number (rules R26, R60). -/
abbrev RoundKeys := Vector Word32 20

end Sys2Proof
end

