-- ==== Sys2Proof/Syntax.lean ====
section
/-! DEFINITION. The commands of the engine, one constructor per row of spec/opcode_table.json (rules R93, R94), and the
two fields of the command word (rule R90). -/

namespace Sys2Proof

/-- A command word, decoded. The wide operands are no part of it: they stand on the ports `key_in` and `din` and are
sampled when the command is accepted (rule R92). -/
inductive Instr where
  /-- `NOP` (rule R232). -/
  | nop
  /-- `KEYGEN`, the master key on `key_in` (rule R233). -/
  | keygen
  /-- `ENC`, the plaintext on `din` (rule R234). -/
  | enc
  /-- `DEC`, the ciphertext on `din` (rule R235). -/
  | dec
  /-- `RDRK idx` (rule R236). -/
  | rdrk (idx : BitVec 5)
  /-- `WRRK idx`, the round key on `din[31:0]` (rule R237). -/
  | wrrk (idx : BitVec 5)
  /-- `CLRH` (rule R238). -/
  | clrh
  /-- One of the 211 illegal words, kept whole (rules R94, R239). -/
  | illegal (word : BitVec 8)
  deriving DecidableEq, Repr

/-- The opcode of a command word, bits 7:5 (rule R90). -/
abbrev opField (w : BitVec 8) : BitVec 3 := w.extractLsb' 5 3

/-- The index field of a command word, bits 4:0 (rule R90). -/
abbrev idxField (w : BitVec 8) : BitVec 5 := w.extractLsb' 0 5

end Sys2Proof
end

