-- ==== Sys2Proof/WellFormed.lean ====
section
/-! DEFINITION. Which terms of `Instr` stand for a command word: the constraints of rules R91, R93 and R94. -/

namespace Sys2Proof

/-- Rule R94's table: a reserved opcode, a format-I word whose index names no round key, a format-N word with an index. -/
def illegalWord (w : BitVec 8) : Bool :=
  if opField w = 7 then true
  else if opField w = 4 ∨ opField w = 5 then decide (20 ≤ (idxField w).toNat)
  else decide (idxField w ≠ 0)

/-- A command as some word encodes it: indices 0 to 19 (rule R91), and `illegal` holds an illegal word only (rule R94). -/
def wellFormed : Instr → Bool
  | .nop => true
  | .keygen => true
  | .enc => true
  | .dec => true
  | .rdrk idx => decide (idx.toNat < 20)
  | .wrrk idx => decide (idx.toNat < 20)
  | .clrh => true
  | .illegal w => illegalWord w

/-- One of the 45 legal words (rule R94): well-formed and not `illegal`. -/
def legal : Instr → Bool
  | .illegal _ => false
  | i => wellFormed i

end Sys2Proof
end

