-- ==== Sys2Proof/Decode.lean ====
section
/-! DEFINITION. From command words to commands and back (rules R90 to R95). Decoding is total: every one of the 256
words is one of the 45 legal commands or an illegal word, rejected by name, which the engine accepts as a command that
ends with ILLEGAL (rule R239). -/

namespace Sys2Proof

/-- Why a word is illegal: the three rows of rule R94. -/
inductive Reject where
  /-- `op = 7`: the reserved opcode. -/
  | reservedOpcode
  /-- `op` in 0, 1, 2, 3, 6 with `idx` not 0: format N needs `idx = 0`. -/
  | indexInFormatN
  /-- `op` in 4, 5 with `idx` 20 to 31: no such round key. -/
  | noSuchRoundKey
  deriving DecidableEq, Repr

/-- Format N: the index field must be 0 (rule R91). -/
def formatN (idx : BitVec 5) (i : Instr) : Except Reject Instr :=
  if idx = 0 then .ok i else .error .indexInFormatN

/-- Format I: the index field must name a round key (rule R91). -/
def formatI (idx : BitVec 5) (i : Instr) : Except Reject Instr :=
  if idx.toNat < 20 then .ok i else .error .noSuchRoundKey

/-- The decode verdict of a command word (rules R93, R94). -/
def verdict (w : BitVec 8) : Except Reject Instr :=
  match (opField w).toNat with
  | 0 => formatN (idxField w) .nop
  | 1 => formatN (idxField w) .keygen
  | 2 => formatN (idxField w) .enc
  | 3 => formatN (idxField w) .dec
  | 4 => formatI (idxField w) (.rdrk (idxField w))
  | 5 => formatI (idxField w) (.wrrk (idxField w))
  | 6 => formatN (idxField w) .clrh
  | _ => .error .reservedOpcode

/-- The command a word stands for: a rejected word is the command `illegal` of that word (rules R94, R239). -/
def decode (w : BitVec 8) : Instr :=
  match verdict w with
  | .ok i => i
  | .error _ => .illegal w

/-- The word of a command (rule R93, column "Encoding"). -/
def encode : Instr → BitVec 8
  | .nop => 0b00000000
  | .keygen => 0b00100000
  | .enc => 0b01000000
  | .dec => 0b01100000
  | .rdrk idx => 0b100#3 ++ idx
  | .wrrk idx => 0b101#3 ++ idx
  | .clrh => 0b11000000
  | .illegal w => w

/-- A row of the opcode map, as rule R93 writes it: a word `w` selects the row when `w & mask = match` and the row's
constraint on the index holds. -/
structure OpcodeRow where
  mnemonic : String
  pattern  : BitVec 8
  mask     : BitVec 8
  idxBound : Nat
  deriving DecidableEq, Repr

/-- The opcode map of rule R93. In format N the mask covers the index field, so its bound says nothing more. -/
def opcodeMap : List OpcodeRow :=
  [ ⟨"NOP",    0x00, 0xFF, 32⟩,
    ⟨"KEYGEN", 0x20, 0xFF, 32⟩,
    ⟨"ENC",    0x40, 0xFF, 32⟩,
    ⟨"DEC",    0x60, 0xFF, 32⟩,
    ⟨"RDRK",   0x80, 0xE0, 20⟩,
    ⟨"WRRK",   0xA0, 0xE0, 20⟩,
    ⟨"CLRH",   0xC0, 0xFF, 32⟩ ]

/-- Whether a word selects a row (rule R93). -/
def selects (w : BitVec 8) (r : OpcodeRow) : Bool :=
  decide (w &&& r.mask = r.pattern) && decide ((idxField w).toNat < r.idxBound)

/-- The mnemonic of a command, as spec/opcode_table.json spells it. -/
def mnemonic : Instr → String
  | .nop => "NOP"
  | .keygen => "KEYGEN"
  | .enc => "ENC"
  | .dec => "DEC"
  | .rdrk _ => "RDRK"
  | .wrrk _ => "WRRK"
  | .clrh => "CLRH"
  | .illegal _ => "ILLEGAL"

/-- What the decoder reads from a word numbered as spec/opcode_table.json numbers its bits. A command is one 8-bit word
with no further words (rules R90, R95); a number that does not fit in it is no command word. -/
def decodeTableWord (nbits w : Nat) : Option Instr :=
  if nbits ≤ 8 ∧ w < 256 then some (decode (BitVec.ofNat 8 w)) else none

end Sys2Proof
end

