-- ==== Sys2Proof/Config.lean ====
section
/-! DEFINITION. What an instance of the engine fixes (rule R7): the four tables, `ARX_MODE` and `HIST_DEPTH`; and the
free values, bodyless constants for what the spec leaves without a value. -/

namespace Sys2Proof

/-- Keep the ARX history or remove it (rule R166). -/
inductive ArxMode where
  | history
  | stateless
  deriving DecidableEq, Repr, Inhabited

/-- The four constant lookup tables (rules R60, R120 to R123). -/
structure Tables where
  sbox    : Vector Nibble 16
  invSbox : Vector Nibble 16
  perm    : Vector BitPos 32
  invPerm : Vector BitPos 32
  deriving DecidableEq, Repr, Inhabited

/-- The tables whose forward halves are the given bijections and whose inverse halves are their inverses. By rule R124
these are exactly the tables with `TABLES_OK`. -/
def Tables.ofPerms (s : Equiv.Perm Nibble) (p : Equiv.Perm BitPos) : Tables where
  sbox    := Vector.ofFn fun n => s (BitVec.ofFin n)
  invSbox := Vector.ofFn fun n => s.symm (BitVec.ofFin n)
  perm    := Vector.ofFn fun i => p (BitVec.ofFin i)
  invPerm := Vector.ofFn fun i => p.symm (BitVec.ofFin i)

/-- The parameters of an instance (rule R7). `histDepth = none` is infinity (rule R164). The latencies of rule R7 are
not normative and not modelled (rule R316). -/
structure Params where
  tables    : Tables
  arxMode   : ArxMode
  histDepth : Option Nat
  deriving DecidableEq, Repr, Inhabited

/-- `SBOX` of the hardware: OPEN, in no source, a bijection of the nibbles (rules R7, R8). A free value, log 2, safe. -/
opaque Config.sbox : Equiv.Perm Nibble

/-- `PERM` of the hardware: OPEN, in no source, a bijection of the bit positions (rules R7, R8). A free value, log 2,
safe. -/
opaque Config.perm : Equiv.Perm BitPos

/-- The four tables of the hardware, open but for `TABLES_OK`, which rules R7 and R8 require of them. -/
def Config.tables : Tables := Tables.ofPerms Config.sbox Config.perm

/-- How many records beyond 40 the history stack holds, `none` for infinity: OPEN (rule R7, D11).
DESIGN CHOICE, log 3, safe. -/
opaque Config.histSpare : Option Nat

/-- `HIST_DEPTH`: at least 40, or infinity (rules R7, R164). -/
def Config.histDepth : Option Nat := Config.histSpare.map (40 + ·)

/-- The parameters of the instance that `State.reset` describes. `ARX_MODE` has the spec's value `HISTORY` (rule R7, D10).
DESIGN CHOICE, log 4, unsafe for an instance built `STATELESS`. -/
def Config.params : Params where
  tables    := Config.tables
  arxMode   := .history
  histDepth := Config.histDepth

/-- The lanes after a command: no value (rules R21, R23, R230). A free value, log 6, safe. -/
opaque Config.freeLanes : Nat → Lanes

/-- `KS` after a command: no value (rules R21, R24, R230). A free value, log 6, safe. -/
opaque Config.freeKs : Nat → Key

/-- `RND` after a command: no value (rules R21, R30, R230). A free value, log 6, safe. -/
opaque Config.freeRnd : Nat → BitVec 5

/-- `SPSAVE` after a command: no value (rules R21, R42, R214). A free value, log 6, safe. -/
opaque Config.freeSpSave : Nat → Nat

/-- `MISM` after a command: no value (rules R21, R42, R214). A free value, log 6, safe. -/
opaque Config.freeMism : Nat → Bool

end Sys2Proof
end

