-- ==== Sys2Proof/Machine/Bits.lean ====
section
/-! DEFINITION. The bit primitives of rule R12: halves of a 32-bit value, nibbles, and a value built bit by bit. Left
rotation `rotl_w(v, n)` is `BitVec.rotateLeft v n`, concatenation `a || b` is `a ++ b`, the field `v[lo+n-1:lo]` is
`v.extractLsb' lo n`. -/

namespace Sys2Proof.Machine

/-- `high16(v) = v[31:16]` (rule R12, D32). -/
def high16 (v : Word32) : Lane := v.extractLsb' 16 16

/-- `low16(v) = v[15:0]` (rule R12, D32). -/
def low16 (v : Word32) : Lane := v.extractLsb' 0 16

/-- Nibble `j` of a value, `v[4j+3:4j]`, counted from the least significant (rule R67). -/
def nibbleOf {w : Nat} (j : Nat) (v : BitVec w) : Nibble := v.extractLsb' (4 * j) 4

/-- The `n`-bit value whose bit `i` is `f i`, bit 0 the least significant (rule R11). -/
def gatherBits (f : Nat → Bool) : (n : Nat) → BitVec n
  | 0 => 0#0
  | n + 1 => BitVec.cons (f n) (gatherBits f n)

end Sys2Proof.Machine
end

