-- ==== Sys2Proof/Machine/Lookup.lean ====
section
/-! DEFINITION. The lookup layer (spec/40_lookup.md): table reads, the predicate TABLES_OK, the substitution layers and
the permutation layers. All are total, pure and without side effects (rule R131). -/

namespace Sys2Proof.Machine

/-- `MemRead(SBOX, n)` (rules R61, R120): the index is in range by its width. -/
def sboxAt (t : Tables) (n : Nibble) : Nibble := t.sbox[n.toNat]'n.isLt

/-- `MemRead(INV_SBOX, n)` (rules R61, R121). -/
def invSboxAt (t : Tables) (n : Nibble) : Nibble := t.invSbox[n.toNat]'n.isLt

/-- `MemRead(PERM, i)` (rules R61, R122). -/
def permAt (t : Tables) (i : BitPos) : BitPos := t.perm[i.toNat]'i.isLt

/-- `MemRead(INV_PERM, i)` (rules R61, R123). -/
def invPermAt (t : Tables) (i : BitPos) : BitPos := t.invPerm[i.toNat]'i.isLt

/-- `TABLES_OK` (rule R124): (S1), (S2), (P1), (P2). -/
abbrev TablesOk (t : Tables) : Prop :=
  (∀ n : Nibble, invSboxAt t (sboxAt t n) = n) ∧
  (∀ n : Nibble, sboxAt t (invSboxAt t n) = n) ∧
  (∀ i : BitPos, invPermAt t (permAt t i) = i) ∧
  (∀ i : BitPos, permAt t (invPermAt t i) = i)

/-- What rule R7 requires of the parameters: `TABLES_OK` of the tables, `HIST_DEPTH` at least 40. -/
def ParamsOk (p : Params) : Prop := TablesOk p.tables ∧ ∀ d, p.histDepth = some d → 40 ≤ d

/-- The table self-check made at reset (rules R125, R302): the value written to `TBLERR`. -/
def selfCheckFails (t : Tables) : Bool := !decide (TablesOk t)

/-- Each of the eight nibbles through a table, in place, least significant first (rules R126, R127). -/
def mapNibbles (f : Nibble → Nibble) (v : Word32) : Word32 :=
  f (nibbleOf 7 v) ++ f (nibbleOf 6 v) ++ f (nibbleOf 5 v) ++ f (nibbleOf 4 v) ++
  f (nibbleOf 3 v) ++ f (nibbleOf 2 v) ++ f (nibbleOf 1 v) ++ f (nibbleOf 0 v)

/-- `SubWord32(v)` (rule R126). -/
def subWord32 (t : Tables) (v : Word32) : Word32 := mapNibbles (sboxAt t) v

/-- `InvSubWord32(w)` (rule R127). -/
def invSubWord32 (t : Tables) (w : Word32) : Word32 := mapNibbles (invSboxAt t) w

/-- `SubByte(t)`: both nibbles through the forward table, each back in its own place (rule R130, D9). -/
def subByte (t : Tables) (b : BitVec 8) : BitVec 8 :=
  sboxAt t (nibbleOf 1 b) ++ sboxAt t (nibbleOf 0 b)

/-- Output bit `i` takes input bit `p i`: a gather, indexed by the output position (rules R128, R129). -/
def gatherWord (p : BitPos → BitPos) (w : Word32) : Word32 :=
  gatherBits (fun i => w.getLsbD (p (BitVec.ofNat 5 i)).toNat) 32

/-- `PermBits(w)` (rule R128). -/
def permBits (t : Tables) (w : Word32) : Word32 := gatherWord (permAt t) w

/-- `InvPermBits(y)` (rule R129): the same gather through `INV_PERM`. -/
def invPermBits (t : Tables) (y : Word32) : Word32 := gatherWord (invPermAt t) y

end Sys2Proof.Machine
end

