-- ==== Sys2Proof/Machine/Spn.lean ====
section
/-! DEFINITION. The SPN stage F2 and its inverse (spec/43_spn_f2.md, rules R180, R181). -/

namespace Sys2Proof.Machine

/-- `F2(x, k)`: key XOR, then substitution, then permutation (rule R180). -/
def f2 (t : Tables) (x k : Word32) : Word32 := permBits t (subWord32 t (x ^^^ k))

/-- `F2Inv(y, k)`: inverse permutation, then inverse substitution, then key XOR (rule R181). -/
def f2Inv (t : Tables) (y k : Word32) : Word32 := invSubWord32 t (invPermBits t y) ^^^ k

end Sys2Proof.Machine
end

