-- ==== Sys2Proof/Machine/Feistel.lean ====
section
/-! DEFINITION. The Feistel network as functions of the data (spec/44_feistel.md, rules R200 to R206): lanes in and out,
the lane part of a round, the block functions and the sequence of F1 inputs. What the rounds do to the history stands in
Machine/Rounds.lean. -/

namespace Sys2Proof.Machine

/-- `LoadLanes(blk)`: the most significant 16 bits to L0, then L1, R0, R1 (rules R65, R200). -/
def lanesOf (blk : Block) : Lanes where
  l0 := blk.extractLsb' 48 16
  l1 := blk.extractLsb' 32 16
  r0 := blk.extractLsb' 16 16
  r1 := blk.extractLsb' 0 16

/-- `StoreLanes()`: `L0 || L1 || R0 || R1` (rules R65, R203). -/
def blockOf (l : Lanes) : Block := l.l0 ++ l.l1 ++ l.r0 ++ l.r1

/-- The F2 input of a round, `(L1 << 16) | R0` (rule R201). -/
def middleWord (l : Lanes) : Word32 := l.l1 ++ l.r0

/-- The other two lanes, `R1 || L0` (rule R210). -/
def outerWord (l : Lanes) : Word32 := l.r1 ++ l.l0

/-- Entry `i` of the round keys, by round number. The rounds use 0 to 19 only. -/
def keyAt (rk : RoundKeys) (i : Nat) : Word32 := rk[i % 20]'(Nat.mod_lt i (by decide))

/-- The lane part of `EncRound(i)` under round key `k`: steps 2 and 3 of rule R201. -/
def encLanes (t : Tables) (k : Word32) (l : Lanes) : Lanes :=
  let temp := f2 t (middleWord l) k
  { l0 := low16 temp, l1 := l.r1, r0 := l.l0, r1 := high16 temp }

/-- Step 1 of `DecRound(i)`: undo the swap of L0 with R0 and L1 with R1 (rule R204). -/
def swapLanes (l : Lanes) : Lanes := { l0 := l.r0, l1 := l.r1, r0 := l.l0, r1 := l.l1 }

/-- Step 2 of `DecRound(i)`: the value `temp` the round recovers (rule R204). -/
def decTemp (t : Tables) (k : Word32) (l : Lanes) : Word32 := f2Inv t (middleWord (swapLanes l)) k

/-- The lane part of `DecRound(i)`: steps 1, 2 and 4 of rule R204. -/
def decLanes (t : Tables) (k : Word32) (l : Lanes) : Lanes :=
  { swapLanes l with l1 := high16 (decTemp t k l), r0 := low16 (decTemp t k l) }

/-- The lanes after encrypt rounds 0 to `n - 1` in order (rule R202). -/
def encLanesLoop (t : Tables) (rk : RoundKeys) : Nat → Lanes → Lanes
  | 0, l => l
  | n + 1, l => encLanes t (keyAt rk n) (encLanesLoop t rk n l)

/-- The lanes after decrypt rounds `n - 1` down to 0 (rule R205). -/
def decLanesLoop (t : Tables) (rk : RoundKeys) : Nat → Lanes → Lanes
  | 0, l => l
  | n + 1, l => decLanesLoop t rk n (decLanes t (keyAt rk n) l)

/-- `EncryptBlock(blk, rk)` (rule R202). -/
def encryptBlock (t : Tables) (rk : RoundKeys) (blk : Block) : Block :=
  blockOf (encLanesLoop t rk 20 (lanesOf blk))

/-- The data part of `DecryptBlock(blk, rk)` (rules R205, R209). -/
def decryptBlock (t : Tables) (rk : RoundKeys) (blk : Block) : Block :=
  blockOf (decLanesLoop t rk 20 (lanesOf blk))

/-- The F1 inputs of encrypt rounds 0 to `n - 1` in push order: `L1`, then `R0`, at the start of each round (rule R206). -/
def encTraceLoop (t : Tables) (rk : RoundKeys) : Nat → Lanes → List Lane
  | 0, _ => []
  | n + 1, l => encTraceLoop t rk n l ++ [(encLanesLoop t rk n l).l1, (encLanesLoop t rk n l).r0]

/-- `EncTrace(blk, rk)`: the 40 F1 inputs of `EncryptBlock(blk, rk)` (rule R206). -/
def encTrace (t : Tables) (rk : RoundKeys) (blk : Block) : List Lane := encTraceLoop t rk 20 (lanesOf blk)

/-- The values decrypt rounds `n - 1` down to 0 compare with the popped records, in pop order: in each round
`low16(temp)`, then `high16(temp)` (rules R204, R207). -/
def decPopsLoop (t : Tables) (rk : RoundKeys) : Nat → Lanes → List Lane
  | 0, _ => []
  | n + 1, l =>
    low16 (decTemp t (keyAt rk n) l) :: high16 (decTemp t (keyAt rk n) l) ::
      decPopsLoop t rk n (decLanes t (keyAt rk n) l)

/-- The 40 values a DEC of `blk` compares with the records it pops, in pop order (rule R207). -/
def decPops (t : Tables) (rk : RoundKeys) (blk : Block) : List Lane := decPopsLoop t rk 20 (lanesOf blk)

end Sys2Proof.Machine
end

