-- ==== Sys2Proof/Machine/Arx.lean ====
section
/-! DEFINITION. The ARX stage F1 and its history record (spec/42_arx_f1.md, rules R160, R161): two rotations and XOR, no
addition and no table. -/

namespace Sys2Proof.Machine

/-- `F1(x, k)` (rule R160). -/
def f1 (x k : Lane) : Lane := x.rotateLeft 5 ^^^ x.rotateLeft 1 ^^^ k

/-- `Rec(x)`, the history record of an F1 input (rule R161). -/
def recOf (x : Lane) : HistRec := ⟨x, x.rotateLeft 5, x.rotateLeft 1⟩

/-- What the ARX inverse call returns from a popped record, `e.a ^ e.b ^ k` (rule R165, D14). -/
def recValue (e : HistRec) (k : Lane) : Lane := e.a ^^^ e.b ^^^ k

end Sys2Proof.Machine
end

