-- ==== Sys2Proof/Machine/Errors.lean ====
section
/-! DEFINITION. The error causes and their codes (rule R261). An error is the engine's only kind of exception (rule
R260); it is no stop: the command completes, with the code in `ERR` (rule R262). -/

namespace Sys2Proof.Machine

/-- The five errors of rule R261. Codes 6 and 7 are reserved and never produced. -/
inductive ErrCode where
  /-- The word is one of the 211 illegal words. -/
  | illegal
  /-- A round key the command needs has not been written since reset. -/
  | nokey
  /-- Missing ARX history: underflow, or out-of-order use. -/
  | nohist
  /-- Fewer than 40 free places on the history stack. -/
  | hovf
  /-- The table self-check failed at reset. -/
  | table
  deriving DecidableEq, Repr

/-- The 3-bit code of an error (rule R261). -/
def errBits : ErrCode → BitVec 3
  | .illegal => 1
  | .nokey => 2
  | .nohist => 3
  | .hovf => 4
  | .table => 5

end Sys2Proof.Machine
end

