-- ==== Sys2Proof/Machine/State.lean ====
section
/-! DEFINITION. The state of the engine as plain data (rules R20, R42), the values on its input ports (rule R36), the
parameters it was built with (rule R7), the reasons to stop, and the state after reset (rule R40). -/

namespace Sys2Proof.Machine

/-- The command whose completion the sequencer state `SHORT` waits for: one of the one-step commands, with the operands
sampled at its acceptance, or an error found at acceptance (rule R30). DEDUCED, log 9. -/
inductive ShortOp where
  | nop
  | rdrk (idx : BitVec 5)
  | wrrk (idx : BitVec 5) (v : Word32)
  | clrh
  | error (e : ErrCode)
  deriving DecidableEq, Repr

/-- The sequencer state `FSM` (rules R20, R30). -/
inductive Fsm where
  | idle
  | keygen
  | enc
  | dec
  | short (op : ShortOp)
  deriving DecidableEq, Repr

/-- The values on the input ports at one clock edge (rule R36); the edge of `clk` is the step itself. -/
structure Ports where
  rst   : Bool
  start : Bool
  cmd   : BitVec 8
  keyIn : BitVec 128
  din   : BitVec 64
  deriving DecidableEq, Repr, Inhabited

/-- Nobody drives the ports: no reset, no command. -/
def Ports.quiet : Ports := ⟨false, false, 0, 0, 0⟩

/-- The whole state. The first sixteen fields are those of rules R20 and R42; `params` is what the instance fixes (rule
R7, constant, log 1); `ports` and `pending` are the host's side of the interface (log 7); `freeCtr` is the model's own
counter of free values (log 20). -/
structure State where
  /-- `L0`, `L1`, `R0`, `R1` (rule R23): no value outside ENC and DEC. -/
  lanes     : Lanes
  /-- `KS` (rule R24): no value outside KEYGEN. -/
  ks        : Key
  /-- `RK[0..19]` (rule R26). -/
  rk        : RoundKeys
  /-- `RKV[0..19]` (rule R27). -/
  rkv       : Vector Bool 20
  /-- `HIST` (rule R28): the entries from index 0, the oldest, upwards. -/
  hist      : List HistRec
  /-- `SP` (rule R28). -/
  sp        : Nat
  /-- `DOUT` (rule R25). -/
  dout      : Block
  /-- `DOUT_VALID` (rule R29). -/
  doutValid : Bool
  /-- `FSM` (rule R30). -/
  fsm       : Fsm
  /-- `RND` (rule R30): no value in `IDLE` and `SHORT`. -/
  rnd       : BitVec 5
  /-- `ERR` (rule R31). -/
  err       : BitVec 3
  /-- `FAULT` (rule R32). -/
  fault     : Bool
  /-- `DONE` (rule R33). -/
  done      : Bool
  /-- `TBLERR` (rule R35). -/
  tblErr    : Bool
  /-- `SPSAVE` (rule R42): no value outside DEC. -/
  spSave    : Nat
  /-- `MISM` (rule R42): no value outside DEC. -/
  mism      : Bool
  /-- The instance's parameters (rules R7, R39). -/
  params    : Params
  /-- The values on the input ports at this edge (rule R36). -/
  ports     : Ports
  /-- What the host drives at the later edges, oldest first; quiet once it is used up. -/
  pending   : List Ports
  /-- How many free values have been drawn. -/
  freeCtr   : Nat
  deriving DecidableEq, Repr

/-- The engine has no fault that stops it: every accepted command completes (rule R318), and its errors are next states
(rule R262). So nothing raises a fault and this type is empty. Safe. -/
inductive Fault where
  deriving DecidableEq, Repr

/-- Why a step has no meaning. -/
inductive Refusal where
  /-- Raised by an arm of `exec` whose instruction has no meaning yet. No arm raises it: every command of the opcode
  table has its meaning. Safe: a refused run proves nothing. -/
  | notModelled (mnemonic : String)
  deriving DecidableEq, Repr

/-- The state of rule R40 for an instance with the given parameters, with the self-check of rule R302 made. The
registers for which rule R40 says "no value" hold 0: DESIGN CHOICE, log 5, unsafe. -/
def State.resetFor (p : Params) : State where
  lanes     := ⟨0, 0, 0, 0⟩
  ks        := 0
  rk        := Vector.replicate 20 0
  rkv       := Vector.replicate 20 false
  hist      := []
  sp        := 0
  dout      := 0
  doutValid := false
  fsm       := .idle
  rnd       := 0
  err       := if selfCheckFails p.tables then errBits .table else 0
  fault     := selfCheckFails p.tables
  done      := false
  tblErr    := selfCheckFails p.tables
  spSave    := 0
  mism      := false
  params    := p
  ports     := .quiet
  pending   := []
  freeCtr   := 0

/-- The machine right after reset (rules R40, R300), nobody driving its ports. -/
def State.reset : State := State.resetFor Config.params

end Sys2Proof.Machine
end

