-- ==== Sys2Proof/Machine/Ops.lean ====
section
/-! DEFINITION. The named operations over the state: the two writable memories `RK` and `HIST` (rule R60), acceptance and
completion of a command (rule R230), taking an error (rule R262), the reset edge (rule R300), and the ports. There is no
return from an error: nothing is saved and nothing restored (rule R265). -/

namespace Sys2Proof.Machine

/-- `MemRead(RK, i)` (rule R62). That `RKV[i] = 1` is checked before (rule R231). -/
def rkRead (s : State) (i : Fin 20) : Word32 := s.rk[i]

/-- `MemWrite(RK, i, v)`: stores the entry and sets `RKV[i]` (rule R62). -/
def rkWrite (i : Fin 20) (v : Word32) (s : State) : State :=
  { s with rk := s.rk.set i v, rkv := s.rkv.set i true }

/-- A read of `SP`: 0 in `STATELESS` mode (rule R22). -/
def spRead (s : State) : Nat :=
  match s.params.arxMode with
  | .history => s.sp
  | .stateless => 0

/-- The records on the stack, oldest first: entries at `SP` and beyond have no value (rule R28), and `HIST` does not
exist in `STATELESS` mode (rule R20). -/
def stack (s : State) : List HistRec := s.hist.take (spRead s)

/-- `HistPush(x)` (rule R163); nothing in `STATELESS` mode (rule R169). -/
def histPush (x : Lane) (s : State) : State :=
  match s.params.arxMode with
  | .history => { s with hist := s.hist.take s.sp ++ [recOf x], sp := s.sp + 1 }
  | .stateless => s

/-- `HistPop()`: the top record and the state with `SP` one lower; none when the stack is empty (rule R165). A pop does
not erase the record (rule R214). A place below `SP` that holds no record, which no run reaches (log 12), gives none. -/
def histPop (s : State) : Option (HistRec × State) :=
  if s.sp = 0 then none
  else (s.hist[s.sp - 1]?).map fun e => (e, { s with sp := s.sp - 1 })

/-- The popped records are gone: entries at `SP` and beyond have no value (rule R28). In `STATELESS` mode nothing was
popped (rule R169). -/
def dropPopped (s : State) : State :=
  match s.params.arxMode with
  | .history => { s with hist := s.hist.take s.sp }
  | .stateless => s

/-- `F1Fwd(x, k)`: push the record and return `F1(x, k)` (rules R167, R169). -/
def f1Fwd (x k : Lane) (s : State) : Lane × State := (f1 x k, histPush x s)

/-- `F1Inv(v, k)`: pop and check, raising NOHIST (rule R165); in `STATELESS` mode it does nothing and returns nothing
(rule R169). -/
def f1Inv (v k : Lane) (s : State) : Except ErrCode (Option Lane × State) :=
  match s.params.arxMode with
  | .stateless => .ok (none, s)
  | .history =>
    match histPop s with
    | none => .error .nohist
    | some (e, s') => if e.x = v then .ok (some (recValue e k), s') else .error .nohist

/-- The form of `F1Inv` that raises nothing, for the round-level view: it sets `MISM` instead (rule R214). -/
def f1InvQuiet (v : Lane) (s : State) : State :=
  match s.params.arxMode with
  | .stateless => s
  | .history =>
    match histPop s with
    | none => { s with mism := true }
    | some (e, s') => if e.x = v then s' else { s' with mism := true }

/-- The canonical form of the writable memories: as many records as `SP` says, each the record of its `x`, none in
`STATELESS` mode, and no more than the stack has room for (rules R20, R28, R43, R164). -/
def Memory.wf (s : State) : Bool :=
  decide (s.hist.length = s.sp) && s.hist.all (fun r => decide (r = recOf r.x)) &&
  (match s.params.arxMode with
   | .stateless => decide (s.sp = 0)
   | .history => match s.params.histDepth with
     | none => true
     | some d => decide (s.sp ≤ d))

/-- The lanes, `KS`, `RND`, `SPSAVE` and `MISM` have no value outside their command (rules R23, R24, R30, R42, R230): each
takes a free value (log 6). -/
def forgetWork (s : State) : State :=
  { s with
    lanes := Config.freeLanes s.freeCtr
    ks := Config.freeKs s.freeCtr
    rnd := Config.freeRnd s.freeCtr
    spSave := Config.freeSpSave s.freeCtr
    mism := Config.freeMism s.freeCtr
    freeCtr := s.freeCtr + 1 }

/-- What the acceptance of any command clears: `DONE`, `ERR`, `DOUT_VALID` (rules R98, R230). -/
def beginCommand (s : State) : State := { s with done := false, err := 0, doutValid := false }

/-- Completion without error (rules R98, R230). -/
def complete (s : State) : State := forgetWork { s with err := 0, done := true, fsm := .idle }

/-- `raise E` (rule R262): TAKING AN ERROR. Everything but these fields is as it was in `s`, which callers give as it was
when the command was accepted. -/
def raise (e : ErrCode) (s : State) : State :=
  forgetWork { s with err := errBits e, fault := true, done := true, doutValid := false, fsm := .idle }

/-- The reset edge (rules R300, R301): the state of rule R40, whatever the engine was doing. The parameters, the host's
side of the interface and the count of free values are not the engine's to reset (log 15). -/
def resetEngine (s : State) : State :=
  { State.resetFor s.params with ports := s.ports, pending := s.pending, freeCtr := s.freeCtr }

/-- The next sample on the input ports; quiet when the host has no more to drive (log 7). -/
def advancePorts (s : State) : State :=
  match s.pending with
  | [] => { s with ports := .quiet }
  | p :: ps => { s with ports := p, pending := ps }

/-- Apply a change to the next state of an outcome. -/
def onNext (f : State → State) : Host.Outcome State Fault Refusal → Host.Outcome State Fault Refusal
  | .next s => .next (f s)
  | .fault r => .fault r
  | .refused r => .refused r

end Sys2Proof.Machine
end

