-- ==== Sys2Proof/Machine/Operands.lean ====
section
/-! DEFINITION. The operand forms of the commands (rules R92, R96, R97): the sampled ports, the index field, and the
port samples by which a host issues a command. -/

namespace Sys2Proof.Machine

/-- The master key of KEYGEN, `key_in[127:0]` (rule R92). -/
def keyOperand (s : State) : Key := s.ports.keyIn

/-- The block of ENC and DEC, `din[63:0]` (rule R92). -/
def blockOperand (s : State) : Block := s.ports.din

/-- The round key of WRRK, `din[31:0]`; `din[63:32]` is ignored (rules R92, R237). -/
def rkOperand (s : State) : Word32 := s.ports.din.extractLsb' 0 32

/-- The index of RDRK and WRRK: 0 to 19 names a round key, anything else none; never wrapped (rules R68, R94). -/
def rkIndex (idx : BitVec 5) : Option (Fin 20) :=
  if h : idx.toNat < 20 then some ⟨idx.toNat, h⟩ else none

/-- The entry a round number names. The rounds use 0 to 19 only (rule R62). -/
def roundIndex (i : Nat) : Fin 20 := ⟨i % 20, Nat.mod_lt i (by decide)⟩

/-- A round key widened to 64 bits with zeros on top (rules R75, R236). -/
def zext64 (v : Word32) : Block := v.setWidth 64

/-- `LoadLanes(blk)` (rule R200). -/
def loadLanes (blk : Block) (s : State) : State := { s with lanes := lanesOf blk }

/-- `StoreLanes()` (rule R203). -/
def storeLanes (s : State) : Block := blockOf s.lanes

/-- The port sample by which a host issues a command, in the written form of rule R96: the command word, `key_in` and
`din`. -/
def issue (i : Instr) (key : Key) (din : Block) : Ports := ⟨false, true, encode i, key, din⟩

/-- The pseudo-command RESET: `rst = 1` for one edge (rule R97). -/
def issueReset : Ports := ⟨true, false, 0, 0, 0⟩

/-- The pseudo-command LDRKS: 20 WRRK in index order (rule R97). -/
def issueLdrks (rk : RoundKeys) : List Ports :=
  (List.range 20).map fun i => issue (.wrrk (BitVec.ofNat 5 i)) 0 (zext64 (keyAt rk i))

end Sys2Proof.Machine
end

