-- ==== Sys2Proof/Machine/Rounds.lean ====
section
/-! DEFINITION. The rounds as the engine runs them, over the state (spec/44_feistel.md, rules R201 to R207, R212 to R214):
lanes and history together. -/

namespace Sys2Proof.Machine

/-- `EncRound(i)` (rule R201): the two F1 calls on the lanes as they stand at the start of the round, their values
discarded, pushing `Rec(L1)` then `Rec(R0)`; then the lane update. -/
def encRound (i : Nat) (s : State) : State :=
  let k := rkRead s (roundIndex i)
  let s1 := (f1Fwd s.lanes.l1 (low16 k) s).2
  let s2 := (f1Fwd s.lanes.r0 (high16 k) s1).2
  { s2 with lanes := encLanes s.params.tables k s.lanes }

/-- `DecRound(i)` (rule R204): the `R0` value is checked first, then the `L1` value (conflict C2). -/
def decRound (i : Nat) (s : State) : Except ErrCode State :=
  let k := rkRead s (roundIndex i)
  let temp := decTemp s.params.tables k s.lanes
  match f1Inv (low16 temp) (high16 k) s with
  | .error e => .error e
  | .ok (_, s1) =>
    match f1Inv (high16 temp) (low16 k) s1 with
    | .error e => .error e
    | .ok (_, s2) => .ok { s2 with lanes := decLanes s.params.tables k s.lanes }

/-- `DecRound(i)` with the form of `F1Inv` that raises nothing (rule R214). -/
def decRoundQuiet (i : Nat) (s : State) : State :=
  let k := rkRead s (roundIndex i)
  let temp := decTemp s.params.tables k s.lanes
  let s1 := f1InvQuiet (low16 temp) s
  let s2 := f1InvQuiet (high16 temp) s1
  { s2 with lanes := decLanes s.params.tables k s.lanes }

/-- Encrypt rounds 0 to `n - 1` in this order (rule R202). -/
def encLoop : Nat → State → State
  | 0, s => s
  | n + 1, s => encRound n (encLoop n s)

/-- Decrypt rounds `n - 1` down to 0 in this order, ended by the first error (rules R205, R207). -/
def decLoop : Nat → State → Except ErrCode State
  | 0, s => .ok s
  | n + 1, s =>
    match decRound n s with
    | .error e => .error e
    | .ok t => decLoop n t

end Sys2Proof.Machine
end

