-- ==== Sys2Proof/Machine/Flags.lean ====
section
/-! DEFINITION. The status flags that are functions of the state, the status word (rule R38) and the output ports (rule
R37). No data operation sets a flag (rule R41). -/

namespace Sys2Proof.Machine

/-- `BUSY`: `FSM != IDLE` (rule R34). -/
def busy (s : State) : Bool := !decide (s.fsm = .idle)

/-- `KEYOK`: the AND of `RKV[0..19]` (rule R27). -/
def keyOk (s : State) : Bool := s.rkv.all id

/-- `HEMPTY`: `SP = 0` (rule R38). -/
def hEmpty (s : State) : Bool := decide (spRead s = 0)

/-- `HROOM`: `ARX_MODE = STATELESS` or `SP + 40 <= HIST_DEPTH` (rules R38, R164). -/
def hRoom (s : State) : Bool :=
  match s.params.arxMode with
  | .stateless => true
  | .history =>
    match s.params.histDepth with
    | none => true
    | some d => decide (s.sp + 40 ≤ d)

/-- The 16-bit output port `status` (rule R38). -/
def status (s : State) : BitVec 16 :=
  0#5 ++ s.err ++ BitVec.ofBool (hRoom s) ++ BitVec.ofBool (hEmpty s) ++ BitVec.ofBool (keyOk s) ++
    BitVec.ofBool s.tblErr ++ BitVec.ofBool s.fault ++ BitVec.ofBool s.doutValid ++ BitVec.ofBool s.done ++
    BitVec.ofBool (busy s)

/-- The 64-bit output port `dout`: the register `DOUT`, at all times (rules R25, R37). -/
def doutPort (s : State) : Block := s.dout

/-- The result a host may use: a read of `dout` while `DOUT_VALID = 0` reads no value (rules R25, R313). -/
def result (s : State) : Option Block := if s.doutValid then some s.dout else none

end Sys2Proof.Machine
end

