-- ==== Sys2Proof/Machine/Transaction.lean ====
section
/-! DEFINITION. The frame of every command (rule R230) and the checks made at acceptance (rule R231). -/

namespace Sys2Proof.Machine

/-- Test 3 of rule R231: the round keys the command needs have been written. -/
def keysWritten (i : Instr) (s : State) : Bool :=
  match i with
  | .enc => keyOk s
  | .dec => keyOk s
  | .rdrk idx =>
    match rkIndex idx with
    | some n => s.rkv[n]
    | none => true
  | _ => true

/-- Test 4 of rule R231: an ENC needs 40 free places in `HISTORY` mode. -/
def historyRoom (i : Instr) (s : State) : Bool :=
  match i with
  | .enc => hRoom s
  | _ => true

/-- `Check(s, cmd)` (rule R231): the first test that fails gives the error (rule R263). -/
def check (i : Instr) (s : State) : Option ErrCode :=
  if s.tblErr then some .table
  else if !legal i then some .illegal
  else if !keysWritten i s then some .nokey
  else if !historyRoom i s then some .hovf
  else none

/-- `Exec(s, cmd, key_in, din)` (rule R230) for a command with the given body: an error, of the check or of the body,
undoes every write of the body (rule R262). -/
def transact (i : Instr) (body : State → Except ErrCode State) (s : State) : Host.Outcome State Fault Refusal :=
  .next
    (match check i s with
     | some e => raise e s
     | none =>
       match body (beginCommand s) with
       | .ok t => complete t
       | .error e => raise e s)

end Sys2Proof.Machine
end

