-- ==== Sys2Proof/Machine/Cipher.lean ====
section
/-! DEFINITION. The block commands ENC and DEC (rules R234, R235). -/

namespace Sys2Proof.Machine

/-- The body of ENC: 20 rounds from the lanes of the block, then `DOUT` takes the lanes (rules R202, R234). -/
def bodyEnc (blk : Block) (s : State) : Except ErrCode State :=
  let t := encLoop 20 (loadLanes blk s)
  .ok { t with dout := storeLanes t, doutValid := true }

/-- The body of DEC: 20 rounds in reverse, which may raise NOHIST; the popped records are gone (rules R205, R207, R235). -/
def bodyDec (blk : Block) (s : State) : Except ErrCode State :=
  match decLoop 20 (loadLanes blk s) with
  | .error e => .error e
  | .ok t => .ok { dropPopped t with dout := storeLanes t, doutValid := true }

/-- ENC (rule R234). -/
def execEnc (s : State) : Host.Outcome State Fault Refusal := transact .enc (bodyEnc (blockOperand s)) s

/-- DEC (rule R235). -/
def execDec (s : State) : Host.Outcome State Fault Refusal := transact .dec (bodyDec (blockOperand s)) s

end Sys2Proof.Machine
end

