-- ==== Sys2Proof/Machine/Housekeeping.lean ====
section
/-! DEFINITION. The commands that move no data: NOP, CLRH and the illegal words (rules R232, R238, R239). -/

namespace Sys2Proof.Machine

/-- The body of NOP: nothing (rule R232). -/
def bodyNop (s : State) : Except ErrCode State := .ok s

/-- The body of CLRH: every record is dropped; nothing in `STATELESS` mode (rule R238). -/
def bodyClrh (s : State) : Except ErrCode State :=
  match s.params.arxMode with
  | .history => .ok { s with hist := [], sp := 0 }
  | .stateless => .ok s

/-- The body of an illegal word: it has none and ends with ILLEGAL (rule R239). -/
def bodyIllegal (_word : BitVec 8) (_s : State) : Except ErrCode State := .error .illegal

/-- NOP (rule R232). -/
def execNop (s : State) : Host.Outcome State Fault Refusal := transact .nop bodyNop s

/-- CLRH (rule R238). -/
def execClrh (s : State) : Host.Outcome State Fault Refusal := transact .clrh bodyClrh s

/-- An illegal word, accepted as a command that ends with ILLEGAL, or with TABLE when `TBLERR = 1` (rule R239). -/
def execIllegal (word : BitVec 8) (s : State) : Host.Outcome State Fault Refusal :=
  transact (.illegal word) (bodyIllegal word) s

end Sys2Proof.Machine
end

