-- ==== Sys2Proof/Machine/KeySchedule.lean ====
section
/-! DEFINITION. The key schedule (spec/41_key_schedule.md): 20 iterations of rotate, substitute the top byte, inject the
round counter, emit the top 32 bits. -/

namespace Sys2Proof.Machine

/-- Step 1: rotate left by 113 (rule R141). -/
def ksRotate (s : Key) : Key := s.rotateLeft 113

/-- Step 2: the top byte through the forward table, the other 120 bits kept (rule R142). -/
def ksSubst (t : Tables) (s1 : Key) : Key :=
  subByte t (s1.extractLsb' 120 8) ++ s1.extractLsb' 0 120

/-- Step 3: the round index into bits 14:10 (rule R143, D8). -/
def ksCount (i : Nat) (s2 : Key) : Key :=
  s2.extractLsb' 15 113 ++ (s2.extractLsb' 10 5 ^^^ BitVec.ofNat 5 i) ++ s2.extractLsb' 0 10

/-- Step 4: the round key is the top 32 bits (rule R144). -/
def ksEmit (s3 : Key) : Word32 := s3.extractLsb' 96 32

/-- `KsStep(s, i)` (rule R145): the new state and the round key. -/
def ksStep (t : Tables) (s : Key) (i : Nat) : Key × Word32 :=
  let s3 := ksCount i (ksSubst t (ksRotate s))
  (s3, ksEmit s3)

/-- The state after the first `n` iterations, 0 to `n - 1` in order (rules R140, R146). -/
def ksState (t : Tables) (key : Key) : Nat → Key
  | 0 => key
  | n + 1 => (ksStep t (ksState t key n) n).1

/-- The round key of iteration `i` (rule R146). -/
def roundKey (t : Tables) (key : Key) (i : Nat) : Word32 := (ksStep t (ksState t key i) i).2

/-- `KeySchedule(master_key)` (rule R146): the 20 round keys; the final state is dropped. -/
def keySchedule (t : Tables) (key : Key) : RoundKeys := Vector.ofFn fun i => roundKey t key i.val

end Sys2Proof.Machine
end

