-- ==== Sys2Proof/Machine/Keys.lean ====
section
/-! DEFINITION. The commands of the round-key file: KEYGEN, RDRK, WRRK (rules R233, R236, R237). -/

namespace Sys2Proof.Machine

/-- The body of KEYGEN: all of `RK` from the key schedule, all of `RKV` set (rule R233). -/
def bodyKeygen (key : Key) (s : State) : Except ErrCode State :=
  .ok { s with rk := keySchedule s.params.tables key, rkv := Vector.replicate 20 true }

/-- The body of RDRK: `DOUT` takes the entry, zero-extended (rule R236). -/
def bodyRdrk (idx : BitVec 5) (s : State) : Except ErrCode State :=
  match rkIndex idx with
  | some i => .ok { s with dout := zext64 (rkRead s i), doutValid := true }
  | none => .error .illegal

/-- The body of WRRK: one entry and its valid bit (rule R237). -/
def bodyWrrk (idx : BitVec 5) (v : Word32) (s : State) : Except ErrCode State :=
  match rkIndex idx with
  | some i => .ok (rkWrite i v s)
  | none => .error .illegal

/-- KEYGEN (rule R233). -/
def execKeygen (s : State) : Host.Outcome State Fault Refusal := transact .keygen (bodyKeygen (keyOperand s)) s

/-- RDRK (rule R236). -/
def execRdrk (idx : BitVec 5) (s : State) : Host.Outcome State Fault Refusal := transact (.rdrk idx) (bodyRdrk idx) s

/-- WRRK (rule R237). -/
def execWrrk (idx : BitVec 5) (s : State) : Host.Outcome State Fault Refusal :=
  transact (.wrrk idx) (bodyWrrk idx (rkOperand s)) s

end Sys2Proof.Machine
end

