-- ==== Sys2Proof/Machine/Dispatch.lean ====
section
/-! DEFINITION. `Exec` of rule R230, one arm per command of the opcode table: the complete execution of one accepted
command. Whether a command is accepted is the step's business (rules R98, R99). -/

namespace Sys2Proof.Machine

def exec (i : Instr) (s : State) : Host.Outcome State Fault Refusal :=
  match i with
  | .nop => Sys2Proof.Machine.execNop s
  | .keygen => Sys2Proof.Machine.execKeygen s
  | .enc => Sys2Proof.Machine.execEnc s
  | .dec => Sys2Proof.Machine.execDec s
  | .rdrk idx => Sys2Proof.Machine.execRdrk idx s
  | .wrrk idx => Sys2Proof.Machine.execWrrk idx s
  | .clrh => Sys2Proof.Machine.execClrh s
  | .illegal word => Sys2Proof.Machine.execIllegal word s

end Sys2Proof.Machine
end

