-- ==== Sys2Proof/Machine/Sequencer.lean ====
section
/-! DEFINITION. The round-level view of the engine (rules R30, R98, R99, R211 to R214, R301): acceptance of a command, one
iteration of the running command, and one clock edge. It must give the same values as the transaction level (rule R6). -/

namespace Sys2Proof.Machine

/-- The state `SHORT` of a command that completes in one step (rule R30). -/
def enterShort (op : ShortOp) (s : State) : State := { s with fsm := .short op }

/-- Acceptance of a command that passed the checks: KEYGEN (rule R212), ENC (R213), DEC (R214), the one-step commands
(R30). -/
def startCommand (i : Instr) (s : State) : State :=
  match i with
  | .nop => enterShort .nop s
  | .keygen => { s with ks := keyOperand s, rnd := 0, fsm := .keygen }
  | .enc => { loadLanes (blockOperand s) s with rnd := 0, fsm := .enc }
  | .dec => { loadLanes (blockOperand s) s with rnd := 19, spSave := spRead s, mism := false, fsm := .dec }
  | .rdrk idx => enterShort (.rdrk idx) s
  | .wrrk idx => enterShort (.wrrk idx (rkOperand s)) s
  | .clrh => enterShort .clrh s
  | .illegal _ => enterShort (.error .illegal) s

/-- Acceptance (rules R98, R230, R231): the flags are cleared and the engine leaves `IDLE`; a command that fails a check
goes to `SHORT` (rule R30). -/
def acceptCommand (i : Instr) (s : State) : State :=
  match check i s with
  | some e => enterShort (.error e) (beginCommand s)
  | none => startCommand i (beginCommand s)

/-- Completion of a one-step command from its body: an error is raised. -/
def finishShort (s : State) (r : Except ErrCode State) : State :=
  match r with
  | .ok t => complete t
  | .error e => raise e s

/-- The one step of `SHORT`. -/
def tickShort (op : ShortOp) (s : State) : State :=
  match op with
  | .nop => finishShort s (bodyNop s)
  | .rdrk idx => finishShort s (bodyRdrk idx s)
  | .wrrk idx v => finishShort s (bodyWrrk idx v s)
  | .clrh => finishShort s (bodyClrh s)
  | .error e => raise e s

/-- One step of KEYGEN (rule R212). -/
def tickKeygen (s : State) : State :=
  let r := ksStep s.params.tables s.ks s.rnd.toNat
  let t := rkWrite (roundIndex s.rnd.toNat) r.2 { s with ks := r.1 }
  if s.rnd = 19 then complete { t with rkv := Vector.replicate 20 true } else { t with rnd := s.rnd + 1 }

/-- One step of ENC (rule R213). -/
def tickEnc (s : State) : State :=
  let t := encRound s.rnd.toNat s
  if s.rnd = 19 then complete { t with dout := storeLanes t, doutValid := true } else { t with rnd := s.rnd + 1 }

/-- The end of DEC (rule R214): NOHIST with `SP` put back when a pop failed, else the result, the popped records gone. -/
def finishDec (t : State) : State :=
  if t.mism then raise .nohist { t with sp := t.spSave }
  else complete { dropPopped t with dout := storeLanes t, doutValid := true }

/-- One step of DEC (rule R214): a failed pop sets `MISM` and the loop goes on to round 0. -/
def tickDec (s : State) : State :=
  let t := decRoundQuiet s.rnd.toNat s
  if s.rnd = 0 then finishDec t else { t with rnd := s.rnd - 1 }

/-- One iteration of the running command (rule R211); an idle engine does nothing (rule R269). -/
def tick (s : State) : State :=
  match s.fsm with
  | .idle => s
  | .keygen => tickKeygen s
  | .enc => tickEnc s
  | .dec => tickDec s
  | .short op => tickShort op s

/-- `n` iterations. -/
def tickTimes : Nat → State → State
  | 0, s => s
  | n + 1, s => tickTimes n (tick s)

/-- One clock edge of the round-level view: reset first (rule R300), then acceptance when idle (rule R98), else one
iteration, `start` ignored (rule R99). -/
def edge (s : State) : State :=
  advancePorts
    (if s.ports.rst then resetEngine s
     else if busy s then tick s
     else if s.ports.start then acceptCommand (decode s.ports.cmd) s
     else s)

end Sys2Proof.Machine
end

