-- ==== Sys2Proof/Machine/Step.lean ====
section
/-! DEFINITION. One step of the machine. An idle engine takes a whole transaction in a step (rule R6); an engine found in
the middle of a command takes one iteration of it (rules R211 to R214), `start` ignored (rule R99); a reset edge resets
either (rules R300, R301). Each step uses up one sample of the input ports (log 7, log 8). -/

namespace Sys2Proof.Machine

/-- One step. -/
def step (s : State) : Host.Outcome State Fault Refusal :=
  if s.ports.rst then .next (advancePorts (resetEngine s))
  else if busy s then .next (advancePorts (tick s))
  else if s.ports.start then onNext advancePorts (exec (decode s.ports.cmd) s)
  else .next (advancePorts s)

/-- The state with a command issued on its ports: `start = 1`, no reset, the word on `cmd`; the operand ports stand as
they are, and the engine is idle, since a busy one accepts nothing (rules R98, R99). A command is one word of 8 bits
(rule R90), so there are no bits above `nbits` to place. -/
def State.withFetchWord (s : State) (_nbits w : Nat) : State :=
  { s with fsm := .idle, ports := { s.ports with rst := false, start := true, cmd := BitVec.ofNat 8 w } }

end Sys2Proof.Machine
end

