-- ==== Sys2Proof/Safety.lean ====
section
/-! DEFINITION. What counts as a sound state and a safe run, in the terms the claims use: the invariant that every step
keeps, the sticky error bit, and the names for what a command leaves unchanged. -/

namespace Sys2Proof.Machine

/-- No command since reset has ended with an error (rule R32). -/
def NoErrorYet (s : State) : Prop := s.fault = false

/-- A command has completed: `DONE = 1`, `BUSY = 0` (rules R33, R34, R230). -/
structure Completed (s : State) : Prop where
  done : s.done = true
  idle : s.fsm = .idle

/-- The round keys and their valid bits are as before. -/
structure SameKeys (s t : State) : Prop where
  rk  : t.rk = s.rk
  rkv : t.rkv = s.rkv

/-- The history and its count are as before. -/
structure SameHistory (s t : State) : Prop where
  hist : t.hist = s.hist
  sp   : t.sp = s.sp

/-- What no command ever changes: the parameters, the result of the self-check, and the host's side of the interface. -/
structure SameInstance (s t : State) : Prop where
  params  : t.params = s.params
  tblErr  : t.tblErr = s.tblErr
  ports   : t.ports = s.ports
  pending : t.pending = s.pending

/-- What a command that ends with error `e` leaves (rule R262): the status, and everything else as it was. -/
structure EndsWith (e : ErrCode) (s t : State) : Prop where
  completed : Completed t
  err       : t.err = errBits e
  fault     : t.fault = true
  invalid   : t.doutValid = false
  keys      : SameKeys s t
  history   : SameHistory s t
  dout      : t.dout = s.dout
  same      : SameInstance s t

/-- What a command that ends without error leaves in the status and in what no command changes (rules R230, R32). -/
structure EndsWell (s t : State) : Prop where
  completed : Completed t
  err       : t.err = 0
  fault     : t.fault = s.fault
  same      : SameInstance s t

/-- The status registers agree with one another (rules R29, R31, R32, R35, R38, R261). -/
structure StatusInv (s : State) : Prop where
  tblErr_check : s.tblErr = selfCheckFails s.params.tables
  tblErr_fault : s.tblErr = true → s.fault = true
  tblErr_err   : s.tblErr = true → s.fsm = .idle → s.err = errBits .table
  err_le       : s.err.toNat ≤ 5
  err_fault    : s.err ≠ 0 → s.fault = true
  valid_done   : s.doutValid = true → s.done = true ∧ s.err = 0
  busy_clear   : s.fsm ≠ .idle → s.done = false ∧ s.doutValid = false ∧ s.err = 0

/-- The history storage: every record is the record of its `x` (rule R161), it has room (rule R164), and there is none
in `STATELESS` mode (rule R20). -/
structure StoreInv (s : State) : Prop where
  records   : ∀ r ∈ s.hist, r = recOf r.x
  depth     : ∀ d, s.params.histDepth = some d → 40 ≤ d
  room      : s.params.arxMode = .history → ∀ d, s.params.histDepth = some d → s.hist.length ≤ d
  stateless : s.params.arxMode = .stateless → s.sp = 0 ∧ s.hist = []

/-- The sequencer and `SP` (rules R28, R30, R206, R207, R212 to R214): between commands the stack holds whole blocks of 40
records; during a command `RND` is a round number and counts the pushes or pops made; a command past its checks has
the round keys it reads (rule R27). -/
def SeqInv (s : State) : Prop :=
  match s.fsm with
  | .idle => s.hist.length = s.sp ∧ s.sp % 40 = 0
  | .keygen => s.hist.length = s.sp ∧ s.sp % 40 = 0 ∧ s.tblErr = false ∧ s.rnd.toNat < 20
  | .enc => s.hist.length = s.sp ∧ s.tblErr = false ∧ keyOk s = true ∧ s.rnd.toNat < 20 ∧
      (s.params.arxMode = .history → s.sp % 40 = 2 * s.rnd.toNat ∧
        ∀ d, s.params.histDepth = some d → s.sp + 2 * (20 - s.rnd.toNat) ≤ d)
  | .dec => s.hist.length = s.spSave ∧ s.spSave % 40 = 0 ∧ s.sp ≤ s.spSave ∧ s.tblErr = false ∧ keyOk s = true ∧
      s.rnd.toNat < 20 ∧
      (s.params.arxMode = .history → s.mism = false → s.sp + 2 * (19 - s.rnd.toNat) = s.spSave)
  | .short op => s.hist.length = s.sp ∧ s.sp % 40 = 0 ∧ (s.tblErr = true → op = .error .table) ∧
      ∀ idx, op = .rdrk idx → legal (.rdrk idx) = true ∧ keysWritten (.rdrk idx) s = true

/-- The invariant of the engine: it holds after reset and every step keeps it. -/
structure Inv (s : State) : Prop where
  status : StatusInv s
  store  : StoreInv s
  seq    : SeqInv s

end Sys2Proof.Machine
end

