-- ==== Sys2Proof/Certificates/Slice0/Obligations.lean ====
section
/-! DEFINITION. The statements for the provers, one `def Obligations.<Name> : Prop` each. Every docstring names the rules
of spec/ the statement rests on. "Idle" is `fsm = .idle`, and `EndsWell`, `EndsWith`, `SameKeys`, `SameHistory` and
`SameInstance` are the frames of Safety.lean. Lanes, `KS`, `RND`, `SPSAVE` and `MISM` have no value after a command (rule
R230), so no frame speaks of them. -/

open Sys2Proof Sys2Proof.Machine

/-! ## Command words -/

/-- No bit of an encoding is dropped: every well-formed command is decoded from its own word (rules R90, R91, R93, R94). -/
def Obligations.DecodeOfEncode : Prop :=
  ∀ i : Instr, wellFormed i = true → decode (encode i) = i

/-- Every one of the 256 words decodes to a well-formed command whose word it is (rules R93, R94). -/
def Obligations.EncodeOfDecode : Prop :=
  ∀ w : BitVec 8, wellFormed (decode w) = true ∧ encode (decode w) = w

/-- The opcode map of rule R93: a word selects a row exactly when it decodes to that row's command, and the words that
select no row are the illegal ones. -/
def Obligations.OpcodeMapSelects : Prop :=
  ∀ w : BitVec 8,
    (∀ r ∈ opcodeMap, selects w r = true ↔ mnemonic (decode w) = r.mnemonic) ∧
    ((∀ r ∈ opcodeMap, selects w r = false) ↔ decode w = .illegal w)

/-- Rule R94: 45 legal words (5 of format N, 20 RDRK, 20 WRRK) and 211 illegal ones in three classes, and what an illegal
word that is issued does. -/
def Obligations.DecodeVerdicts : Prop :=
  ((List.range 256).countP fun n => legal (decode (BitVec.ofNat 8 n))) = 45 ∧
  ((List.range 256).countP fun n => illegalWord (BitVec.ofNat 8 n)) = 211 ∧
  (∀ idx : BitVec 5, idx.toNat < 20 → legal (decode (0b100#3 ++ idx)) = true ∧ legal (decode (0b101#3 ++ idx)) = true) ∧
  (∀ w : BitVec 8, illegalWord w = true ↔
    opField w = 7 ∨ ((opField w).toNat ∈ [0, 1, 2, 3, 6] ∧ idxField w ≠ 0) ∨
      ((opField w).toNat ∈ [4, 5] ∧ 20 ≤ (idxField w).toNat)) ∧
  (∀ (w : BitVec 8) (s : State), illegalWord w = true → s.tblErr = false →
    ∃ t, exec (decode w) s = .next t ∧ EndsWith .illegal s t)

/-- Some of the verdicts of spec/95_test_vectors.md section 8 and of the words of rule R96. -/
def Obligations.SpecWordsDecode : Prop :=
  decode 0x00 = .nop ∧ decode 0x20 = .keygen ∧ decode 0x40 = .enc ∧ decode 0x60 = .dec ∧ decode 0x83 = .rdrk 3 ∧
  decode 0x93 = .rdrk 19 ∧ decode 0x94 = .illegal 0x94 ∧ decode 0xA3 = .wrrk 3 ∧ decode 0xB4 = .illegal 0xB4 ∧
  decode 0xC0 = .clrh ∧ decode 0xC1 = .illegal 0xC1 ∧ decode 0xE0 = .illegal 0xE0

/-! ## The step -/

/-- A command issued to an idle engine is executed, and the port samples move on (rules R98, R230; the move of the ports
is the model's, log 7). -/
def Obligations.StepRunsDecodedCommand : Prop :=
  ∀ s : State, s.ports.rst = false → s.fsm = .idle → s.ports.start = true →
    step s = onNext advancePorts (exec (decode s.ports.cmd) s)

/-- An idle engine with `start = 0` does nothing (rule R269). -/
def Obligations.IdleStepWaits : Prop :=
  ∀ s : State, s.ports.rst = false → s.fsm = .idle → s.ports.start = false → step s = .next (advancePorts s)

/-- Rule R99: while a command runs, `start`, `cmd`, `key_in` and `din` are not looked at; the command takes its next
iteration. -/
def Obligations.BusyIgnoresStart : Prop :=
  ∀ (s : State) (p : Ports), s.ports.rst = false → p.rst = false → s.fsm ≠ .idle →
    step s = .next (advancePorts (tick s)) ∧ step { s with ports := p } = step s

/-- Rules R40, R300, R301, R302: a reset edge takes the state of R40 whatever the engine was doing, with the self-check
made. Only the values R40 gives are stated. -/
def Obligations.ResetEdgeState : Prop :=
  ∀ s : State, s.ports.rst = true →
    ∃ t, step s = .next t ∧ t.rkv = Vector.replicate 20 false ∧ t.sp = 0 ∧ t.hist = [] ∧ t.doutValid = false ∧
      t.fsm = .idle ∧ t.done = false ∧ t.params = s.params ∧
      (TablesOk s.params.tables → t.err = 0 ∧ t.fault = false ∧ t.tblErr = false) ∧
      (¬ TablesOk s.params.tables → t.err = 5 ∧ t.fault = true ∧ t.tblErr = true)

/-- The status word after reset: 0x00C0 with good tables, 0x05D8 with bad ones (spec/95_test_vectors.md section 8). The
parameters of `State.reset` are as rule R7 requires, so its word is 0x00C0, whatever the open tables and depth are (logs 2,
3, 4). -/
def Obligations.StatusAfterReset : Prop :=
  ParamsOk State.reset.params ∧ status State.reset = 0x00C0 ∧
  ∀ p : Params, (∀ d, p.histDepth = some d → 40 ≤ d) →
    (TablesOk p.tables → status (State.resetFor p) = 0x00C0) ∧
    (¬ TablesOk p.tables → status (State.resetFor p) = 0x05D8)

/-! ## The commands: where each completes with its own effect, and what it leaves -/

/-- NOP (rule R232): only the frame's flags change. -/
def Obligations.NopRuns : Prop :=
  ∀ s : State, s.tblErr = false →
    ∃ t, exec .nop s = .next t ∧ EndsWell s t ∧ t.doutValid = false ∧ t.dout = s.dout ∧ SameKeys s t ∧ SameHistory s t

/-- KEYGEN (rule R233): all of `RK` from the key schedule, all of `RKV` set, history and `DOUT` untouched. -/
def Obligations.KeygenRuns : Prop :=
  ∀ s : State, s.tblErr = false →
    ∃ t, exec .keygen s = .next t ∧ EndsWell s t ∧ t.rk = keySchedule s.params.tables s.ports.keyIn ∧
      t.rkv = Vector.replicate 20 true ∧ keyOk t = true ∧ t.doutValid = false ∧ t.dout = s.dout ∧ SameHistory s t

/-- ENC (rules R202, R206, R234): with keys and room it gives the ciphertext and pushes the 40 records of the block. -/
def Obligations.EncRuns : Prop :=
  ∀ s : State, s.tblErr = false → keyOk s = true → hRoom s = true →
    ∃ t, exec .enc s = .next t ∧ EndsWell s t ∧ t.dout = encryptBlock s.params.tables s.rk s.ports.din ∧
      t.doutValid = true ∧ SameKeys s t ∧
      (s.params.arxMode = .history →
        t.hist = s.hist.take s.sp ++ (encTrace s.params.tables s.rk s.ports.din).map recOf ∧ t.sp = s.sp + 40) ∧
      (s.params.arxMode = .stateless → SameHistory s t)

/-- DEC (rules R205, R207, R235): when the records on top of the stack carry the values its rounds recover, or in
`STATELESS` mode always, it gives the plaintext and removes the 40 records. -/
def Obligations.DecRuns : Prop :=
  ∀ s : State, s.tblErr = false → keyOk s = true → s.hist.length = s.sp →
    (s.params.arxMode = .stateless ∨
      decPops s.params.tables s.rk s.ports.din <+: s.hist.reverse.map (·.x)) →
    ∃ t, exec .dec s = .next t ∧ EndsWell s t ∧ t.dout = decryptBlock s.params.tables s.rk s.ports.din ∧
      t.doutValid = true ∧ SameKeys s t ∧
      (s.params.arxMode = .history → t.hist = s.hist.take (s.sp - 40) ∧ t.sp = s.sp - 40 ∧ 40 ≤ s.sp) ∧
      (s.params.arxMode = .stateless → SameHistory s t)

/-- RDRK (rule R236): `DOUT` takes the round key, zero on top. -/
def Obligations.RdrkRuns : Prop :=
  ∀ (s : State) (idx : BitVec 5) (h : idx.toNat < 20), s.tblErr = false → s.rkv[idx.toNat] = true →
    ∃ t, exec (.rdrk idx) s = .next t ∧ EndsWell s t ∧ t.doutValid = true ∧
      t.dout.extractLsb' 0 32 = s.rk[idx.toNat] ∧ t.dout.extractLsb' 32 32 = 0 ∧ SameKeys s t ∧ SameHistory s t

/-- WRRK (rule R237): the entry takes `din[31:0]`, its valid bit is set, the other 19 entries and bits stay. -/
def Obligations.WrrkRuns : Prop :=
  ∀ (s : State) (idx : BitVec 5) (h : idx.toNat < 20), s.tblErr = false →
    ∃ t, exec (.wrrk idx) s = .next t ∧ EndsWell s t ∧ t.rk[idx.toNat] = s.ports.din.extractLsb' 0 32 ∧
      t.rkv[idx.toNat] = true ∧
      (∀ n : Fin 20, n.val ≠ idx.toNat → t.rk[n] = s.rk[n] ∧ t.rkv[n] = s.rkv[n]) ∧
      t.doutValid = false ∧ t.dout = s.dout ∧ SameHistory s t

/-- CLRH (rules R238, R266): the stack is empty, and there is room for an ENC again; in `STATELESS` mode nothing. -/
def Obligations.ClrhRuns : Prop :=
  ∀ s : State, s.tblErr = false →
    ∃ t, exec .clrh s = .next t ∧ EndsWell s t ∧ t.doutValid = false ∧ t.dout = s.dout ∧ SameKeys s t ∧
      hEmpty t = true ∧ stack t = [] ∧
      ((∀ d, s.params.histDepth = some d → 40 ≤ d) → hRoom t = true) ∧
      (s.params.arxMode = .history → t.hist = [] ∧ t.sp = 0) ∧
      (s.params.arxMode = .stateless → SameHistory s t)

/-- The illegal words, and every term that is no legal command, end with ILLEGAL and nothing else (rules R94, R239). -/
def Obligations.IllegalRuns : Prop :=
  ∀ (i : Instr) (s : State), legal i = false → s.tblErr = false →
    ∃ t, exec i s = .next t ∧ EndsWith .illegal s t

/-! ## Errors -/

/-- While `TBLERR = 1` every command ends with TABLE (rules R35, R231, R302). -/
def Obligations.TableErrorStopsEveryCommand : Prop :=
  ∀ (i : Instr) (s : State), s.tblErr = true → ∃ t, exec i s = .next t ∧ EndsWith .table s t

/-- Missing round keys: ENC and DEC need all 20, RDRK its own (rules R27, R231, R261). -/
def Obligations.MissingKeysGiveNokey : Prop :=
  ∀ s : State, s.tblErr = false →
    (keyOk s = false → (∃ t, exec .enc s = .next t ∧ EndsWith .nokey s t) ∧
      (∃ t, exec .dec s = .next t ∧ EndsWith .nokey s t)) ∧
    (∀ (idx : BitVec 5) (h : idx.toNat < 20), s.rkv[idx.toNat] = false →
      ∃ t, exec (.rdrk idx) s = .next t ∧ EndsWith .nokey s t)

/-- ENC without 40 free places ends with HOVF, DEC with fewer than 40 records with NOHIST, the stack as it was (rules R164,
R165, R207, R231). -/
def Obligations.HistoryLimits : Prop :=
  ∀ s : State, s.tblErr = false → keyOk s = true → s.params.arxMode = .history →
    (∀ d, s.params.histDepth = some d → d < s.sp + 40 → ∃ t, exec .enc s = .next t ∧ EndsWith .hovf s t) ∧
    (s.sp < 40 → ∃ t, exec .dec s = .next t ∧ EndsWith .nohist s t)

/-- Rules R231, R263: one error, the first of TABLE, ILLEGAL, NOKEY, then HOVF (ENC) or NOHIST (DEC). -/
def Obligations.ErrorPriority : Prop :=
  ∀ (i : Instr) (s t : State), exec i s = .next t →
    (s.tblErr = true → t.err = errBits .table) ∧
    (s.tblErr = false → legal i = false → t.err = errBits .illegal) ∧
    (s.tblErr = false → legal i = true → keysWritten i s = false → t.err = errBits .nokey) ∧
    (s.tblErr = false → legal i = true → keysWritten i s = true → i = .enc → hRoom s = false → t.err = errBits .hovf) ∧
    (s.tblErr = false → legal i = true → keysWritten i s = true → (i = .enc → hRoom s = true) →
      t.err = 0 ∨ (i = .dec ∧ s.params.arxMode = .history ∧ t.err = errBits .nohist))

/-- Rule R262: a command that ends with an error has changed nothing but the status. -/
def Obligations.ErrorsArePrecise : Prop :=
  ∀ (i : Instr) (s t : State), exec i s = .next t → t.err ≠ 0 → ∃ e, EndsWith e s t

/-- Rules R230, R318: every command completes, in every state, with `DONE = 1` and `BUSY = 0`, and leaves the parameters
and the host's side alone. -/
def Obligations.EveryCommandCompletes : Prop :=
  ∀ (i : Instr) (s : State), ∃ t, exec i s = .next t ∧ Completed t ∧ SameInstance s t

/-- `DOUT_VALID` is 1 after exactly the successful ENC, DEC and RDRK, and only those write `DOUT` (rules R25, R29). -/
def Obligations.ResultValidity : Prop :=
  ∀ (i : Instr) (s t : State), exec i s = .next t →
    (t.doutValid = true ↔ t.err = 0 ∧ (i = .enc ∨ i = .dec ∨ ∃ idx, i = .rdrk idx)) ∧
    (t.doutValid = false → t.dout = s.dout)

/-- Rule R32: `FAULT` is set by any command that ends with an error, and cleared by reset only, where the self-check
writes it (rules R35, R40). -/
def Obligations.FaultIsSticky : Prop :=
  (∀ (i : Instr) (s t : State), exec i s = .next t → (t.fault = true ↔ s.fault = true ∨ t.err ≠ 0)) ∧
  (∀ s t : State, step s = .next t → s.fault = true → s.ports.rst = false → t.fault = true) ∧
  (∀ s t : State, step s = .next t → s.ports.rst = true → (t.fault = true ↔ ¬ TablesOk s.params.tables))

/-- Only KEYGEN and WRRK write the round keys, and nothing but reset clears a valid bit (rules R26, R27). -/
def Obligations.KeyFileFrame : Prop :=
  (∀ (i : Instr) (s t : State), exec i s = .next t → i ≠ .keygen → (∀ idx, i ≠ .wrrk idx) → SameKeys s t) ∧
  (∀ s t : State, step s = .next t → s.ports.rst = false → ∀ n : Fin 20, s.rkv[n] = true → t.rkv[n] = true)

/-- Only ENC, DEC and CLRH touch the history (rules R28, R43). -/
def Obligations.HistoryFrame : Prop :=
  ∀ (i : Instr) (s t : State), exec i s = .next t → i ≠ .enc → i ≠ .dec → i ≠ .clrh → SameHistory s t

/-- The tables, `ARX_MODE` and `HIST_DEPTH` are constants: no step changes them (rules R39, R60, R61). -/
def Obligations.ParametersConstant : Prop :=
  ∀ s t : State, step s = .next t → t.params = s.params

/-- Rule R92: `key_in` is the operand of KEYGEN only, `din` of ENC, DEC and WRRK only, and WRRK reads no more than
`din[31:0]`: any other value there gives the same next state, but for the port itself. -/
def Obligations.UnusedOperandsIgnored : Prop :=
  (∀ (i : Instr) (s : State) (k : BitVec 128), i ≠ .keygen →
    exec i { s with ports := { s.ports with keyIn := k } } =
      onNext (fun t => { t with ports := { t.ports with keyIn := k } }) (exec i s)) ∧
  (∀ (i : Instr) (s : State) (d : BitVec 64), i ≠ .enc → i ≠ .dec →
    ((∃ idx, i = .wrrk idx) → d.extractLsb' 0 32 = s.ports.din.extractLsb' 0 32) →
    exec i { s with ports := { s.ports with din := d } } =
      onNext (fun t => { t with ports := { t.ports with din := d } }) (exec i s))

/-- Rule R21: no command reads a register where it has no value. The lanes, `KS`, `RND`, `SPSAVE` and `MISM` at acceptance
have no effect on the next state; the entries of `RK` whose `RKV` is 0 have none but on themselves; nor have the entries of
`HIST` at `SP` and above (rule R28); nor has `DOUT`. -/
def Obligations.NoValueIsRead : Prop :=
  (∀ (i : Instr) (s : State) (l : Lanes) (k : Key) (r : BitVec 5) (p : Nat) (m : Bool),
    exec i { s with lanes := l, ks := k, rnd := r, spSave := p, mism := m } = exec i s) ∧
  (∀ (i : Instr) (s t : State) (rk : RoundKeys), exec i s = .next t → (∀ n : Fin 20, s.rkv[n] = true → rk[n] = s.rk[n]) →
    ∃ rk' : RoundKeys, exec i { s with rk := rk } = .next { t with rk := rk' } ∧
      ∀ n : Fin 20, t.rkv[n] = true → rk'[n] = t.rk[n]) ∧
  (∀ (i : Instr) (s t : State) (h : List HistRec), exec i s = .next t → h.take s.sp = s.hist.take s.sp →
    ∃ h' : List HistRec, exec i { s with hist := h } = .next { t with hist := h' } ∧ h'.take t.sp = t.hist.take t.sp) ∧
  (∀ (i : Instr) (s t : State) (d : Block), exec i s = .next t →
    exec i { s with dout := d } = .next { t with dout := if t.doutValid then t.dout else d })

/-! ## The history stack -/

/-- A record that is pushed is the one popped, and the pop brings the stack back (rules R163, R165). -/
def Obligations.PopAfterPush : Prop :=
  ∀ (s : State) (x : Lane), s.params.arxMode = .history → s.hist.length = s.sp →
    ∃ u, histPop (histPush x s) = some (recOf x, u) ∧ dropPopped u = s

/-- The ARX inverse call in `HISTORY` mode, at any of the 40 calls of a DEC, where the popped records are still stored
(log 12): NOHIST on underflow, NOHIST when the top record's `x` is not the supplied value, else the forward value again and
one record fewer (rule R165). -/
def Obligations.ArxInverseChecks : Prop :=
  ∀ (s : State) (v k : Lane), s.params.arxMode = .history →
    (s.sp = 0 → f1Inv v k s = .error .nohist) ∧
    (∀ x, 0 < s.sp → s.hist[s.sp - 1]? = some (recOf x) →
      (x ≠ v → f1Inv v k s = .error .nohist) ∧
      (x = v → f1Inv v k s = .ok (some (f1 x k), { s with sp := s.sp - 1 })))

/-! ## The functions of the cipher -/

/-- Rules R126 to R130: each nibble goes through its table, in place, in a word and in the byte of the key schedule; output
bit `i` takes the input bit the table names for `i`. -/
def Obligations.LayerBits : Prop :=
  (∀ (t : Tables) (v : Word32) (j : Nat), j < 8 →
    nibbleOf j (subWord32 t v) = sboxAt t (nibbleOf j v) ∧
    nibbleOf j (invSubWord32 t v) = invSboxAt t (nibbleOf j v)) ∧
  (∀ (t : Tables) (b : BitVec 8),
    nibbleOf 1 (subByte t b) = sboxAt t (nibbleOf 1 b) ∧ nibbleOf 0 (subByte t b) = sboxAt t (nibbleOf 0 b)) ∧
  (∀ (t : Tables) (w : Word32) (i : Nat), i < 32 →
    (permBits t w).getLsbD i = w.getLsbD (permAt t (BitVec.ofNat 5 i)).toNat ∧
    (invPermBits t w).getLsbD i = w.getLsbD (invPermAt t (BitVec.ofNat 5 i)).toNat)

/-- The permutation layer keeps the number of 1 bits when TABLES_OK holds (rule R128). -/
def Obligations.PermutationKeepsWeight : Prop :=
  ∀ (t : Tables) (w : Word32), TablesOk t →
    ((List.range 32).countP fun i => (permBits t w).getLsbD i) = ((List.range 32).countP fun i => w.getLsbD i)

/-- Rule R131: with TABLES_OK the layers undo each other, in both orders. -/
def Obligations.LayersInverse : Prop :=
  ∀ (t : Tables) (v : Word32), TablesOk t →
    invSubWord32 t (subWord32 t v) = v ∧ subWord32 t (invSubWord32 t v) = v ∧
    invPermBits t (permBits t v) = v ∧ permBits t (invPermBits t v) = v

/-- Rule R124: (S1) and (P1) imply (S2) and (P2). -/
def Obligations.OneSidedTablesSuffice : Prop :=
  ∀ t : Tables, (∀ n : Nibble, invSboxAt t (sboxAt t n) = n) → (∀ i : BitPos, invPermAt t (permAt t i) = i) →
    TablesOk t

/-- Rules R141 to R146: where each bit of the key-schedule state goes in each step of an iteration, that an iteration is
the steps in this order, and that the schedule is the 20 iterations in order from the master key. -/
def Obligations.KeyScheduleStep : Prop :=
  (∀ (s : Key) (j : Nat), j < 128 → (ksRotate s).getLsbD ((j + 113) % 128) = s.getLsbD j) ∧
  (∀ (t : Tables) (s : Key), (ksSubst t s).extractLsb' 120 8 = subByte t (s.extractLsb' 120 8) ∧
    (ksSubst t s).extractLsb' 0 120 = s.extractLsb' 0 120) ∧
  (∀ (i : Nat) (s : Key), (ksCount i s).extractLsb' 10 5 = s.extractLsb' 10 5 ^^^ BitVec.ofNat 5 i ∧
    (ksCount i s).extractLsb' 15 113 = s.extractLsb' 15 113 ∧ (ksCount i s).extractLsb' 0 10 = s.extractLsb' 0 10) ∧
  (∀ (t : Tables) (s : Key) (i : Nat), (ksStep t s i).1 = ksCount i (ksSubst t (ksRotate s)) ∧
    (ksStep t s i).2 = (ksStep t s i).1.extractLsb' 96 32) ∧
  (∀ (t : Tables) (key : Key) (st : Nat → Key), st 0 = key → (∀ i < 20, st (i + 1) = (ksStep t (st i) i).1) →
    ∀ (i : Nat) (h : i < 20), (keySchedule t key)[i] = (ksStep t (st i) i).2)

/-- Rule R148: one iteration is a bijection of the states when `SBOX` is a bijection. -/
def Obligations.KeyScheduleStepBijective : Prop :=
  ∀ (t : Tables) (i : Nat), Function.Bijective (sboxAt t) → Function.Bijective fun s => (ksStep t s i).1

/-- Rule R147: the key schedule is a function of the key and `SBOX` alone, so two KEYGEN with the same key leave the same
round keys whatever the engine did before. -/
def Obligations.KeygenDeterminism : Prop :=
  (∀ (t t' : Tables) (key : Key), t.sbox = t'.sbox → keySchedule t key = keySchedule t' key) ∧
  (∀ s u s' u' : State, exec .keygen s = .next s' → exec .keygen u = .next u' → s.tblErr = false → u.tblErr = false →
    s.params.tables = u.params.tables → s.ports.keyIn = u.ports.keyIn → s'.rk = u'.rk)

/-- Rule R162: F1 collides exactly along the 16 values whose four nibbles are equal, and has no inverse. -/
def Obligations.ArxKernel : Prop :=
  (∀ x y k : Lane, f1 x k = f1 y k ↔ (x ^^^ y).rotateLeft 4 = x ^^^ y) ∧
  (∀ z : Lane, z.rotateLeft 4 = z ↔ ∃ n : Nibble, z = n ++ n ++ n ++ n) ∧
  (∀ k : Lane, ¬ ∃ g : Lane → Lane, ∀ x : Lane, g (f1 x k) = x)

/-- Rules R180, R181, R184: F2 is key XOR, then substitution, then permutation, its inverse the mirror; with TABLES_OK
they undo each other, in both orders, for every key. -/
def Obligations.SpnRoundTrip : Prop :=
  ∀ (t : Tables) (x k : Word32),
    f2 t x k = permBits t (subWord32 t (x ^^^ k)) ∧ f2Inv t x k = invSubWord32 t (invPermBits t x) ^^^ k ∧
    (f2 t x k = f2 t k x ∧ f2 t x k = f2 t (x ^^^ k) 0) ∧
    (TablesOk t → f2Inv t (f2 t x k) k = x ∧ f2 t (f2Inv t x k) k = x)

/-- Rule R209: as functions of the data, encryption and decryption under one key sequence undo each other. -/
def Obligations.BlockFunctionsInverse : Prop :=
  ∀ (t : Tables) (rk : RoundKeys) (b : Block), TablesOk t →
    decryptBlock t rk (encryptBlock t rk b) = b ∧ encryptBlock t rk (decryptBlock t rk b) = b

/-- Rule R210: a round takes the middle word to F2 and swaps it with the outer word, so the two words of the block never
mix: ten F2 steps each, the even round keys on the one, the odd on the other, and where their halves stand in the result. -/
def Obligations.TwoWordsNeverMix : Prop :=
  ∀ (t : Tables) (rk : RoundKeys) (b : Block) (a o : Nat → Word32),
    (∀ (k : Word32) (l : Lanes), middleWord (encLanes t k l) = outerWord l ∧
      outerWord (encLanes t k l) = f2 t (middleWord l) k) ∧
    (a 0 = b.extractLsb' 16 32 → o 0 = b.extractLsb' 0 16 ++ b.extractLsb' 48 16 →
      (∀ j < 10, a (j + 1) = f2 t (a j) (keyAt rk (2 * j))) →
      (∀ j < 10, o (j + 1) = f2 t (o j) (keyAt rk (2 * j + 1))) →
      encryptBlock t rk b = low16 (o 10) ++ high16 (a 10) ++ low16 (a 10) ++ high16 (o 10))

/-- Rules R206, R168 (3): the trace has 40 values, its first four are the lanes of the block, so it identifies the block. -/
def Obligations.TraceIdentifiesBlock : Prop :=
  ∀ (t : Tables) (rk : RoundKeys) (b : Block),
    (encTrace t rk b).length = 40 ∧
    (encTrace t rk b).take 4 =
      [b.extractLsb' 32 16, b.extractLsb' 16 16, b.extractLsb' 0 16, b.extractLsb' 48 16] ∧
    ∀ b' : Block, encTrace t rk b = encTrace t rk b' → b = b'

/-! ## ENC, DEC and the history -/

/-- Rule R208: after a successful ENC, a DEC of its ciphertext under the same round keys, on the stack the ENC left,
succeeds, returns the block and restores the stack; `u` is any state that agrees with the ENC's result on the
parameters, the round keys and the history, so commands that touch none of these may come between. -/
def Obligations.EncThenDecRoundTrip : Prop :=
  ∀ s t u : State, TablesOk s.params.tables → s.hist.length = s.sp → exec .enc s = .next t → t.err = 0 →
    SameKeys t u → SameHistory t u → u.params = t.params → u.tblErr = false → u.ports.din = t.dout →
    ∃ v, exec .dec u = .next v ∧ EndsWell u v ∧ v.doutValid = true ∧ v.dout = s.ports.din ∧ SameKeys s v ∧ SameHistory s v

/-- Rule R207: a DEC in `HISTORY` mode succeeds exactly when the top 40 records, read from the top down, carry the trace of
its result read backwards; then it removes them, and otherwise the stack is as before. -/
def Obligations.DecSucceedsExactly : Prop :=
  ∀ s t : State, TablesOk s.params.tables → s.params.arxMode = .history → s.hist.length = s.sp → s.tblErr = false →
    keyOk s = true → exec .dec s = .next t →
    (t.err = 0 ↔ 40 ≤ s.sp ∧ (s.hist.reverse.take 40).map (·.x) =
      (encTrace s.params.tables s.rk (decryptBlock s.params.tables s.rk s.ports.din)).reverse) ∧
    (t.err = 0 → t.hist = s.hist.take (s.sp - 40) ∧ t.sp = s.sp - 40) ∧
    (t.err ≠ 0 → EndsWith .nohist s t)

/-- Rules R168 (2), R311: after an ENC, on its stack and under its keys, a DEC of any other block ends with NOHIST and
changes nothing. -/
def Obligations.DecUndoesOnlyTheLastEnc : Prop :=
  ∀ s t u : State, TablesOk s.params.tables → s.params.arxMode = .history → s.hist.length = s.sp →
    exec .enc s = .next t → t.err = 0 →
    SameKeys t u → SameHistory t u → u.params = t.params → u.tblErr = false → u.ports.din ≠ t.dout →
    ∃ v, exec .dec u = .next v ∧ EndsWith .nohist u v

/-- Rule R209: the 64 bits a successful ENC or DEC returns depend on the block, the round keys and the tables alone, not
on the history or the mode. -/
def Obligations.ResultIndependentOfHistory : Prop :=
  ∀ (i : Instr) (s u s' u' : State), i = .enc ∨ i = .dec → exec i s = .next s' → exec i u = .next u' →
    s'.err = 0 → u'.err = 0 → s.rk = u.rk → s.params.tables = u.params.tables → s.ports.din = u.ports.din →
    s'.dout = u'.dout

/-! ## The round-level view -/

/-- Rule R98: acceptance clears `DONE`, `DOUT_VALID` and `ERR` and leaves `IDLE`, and shows nothing else of the command. -/
def Obligations.AcceptanceClearsFlags : Prop :=
  ∀ (i : Instr) (s : State),
    let a := acceptCommand i s
    a.done = false ∧ a.doutValid = false ∧ a.err = 0 ∧ a.fsm ≠ .idle ∧ a.fault = s.fault ∧ a.dout = s.dout ∧
      SameKeys s a ∧ SameHistory s a ∧ SameInstance s a

/-- Rule R212: KEYGEN taken round by round, 20 iterations, gives what the command gives in one step. -/
def Obligations.KeygenRoundsAgree : Prop :=
  ∀ s : State, s.tblErr = false → exec .keygen s = .next (tickTimes 20 (acceptCommand .keygen s))

/-- Rule R213: so does ENC, once the acceptance checks have passed. -/
def Obligations.EncRoundsAgree : Prop :=
  ∀ s : State, check .enc s = none → exec .enc s = .next (tickTimes 20 (acceptCommand .enc s))

/-- Rule R214: so does DEC, success and NOHIST alike, with the pops undone at the end instead of at the first failure. -/
def Obligations.DecRoundsAgree : Prop :=
  ∀ s : State, check .dec s = none → exec .dec s = .next (tickTimes 20 (acceptCommand .dec s))

/-- The one-step commands, and any command refused at acceptance, complete in one step (rules R30, R316). -/
def Obligations.ShortCommandsAgree : Prop :=
  ∀ (i : Instr) (s : State), check i s ≠ none ∨ (i ≠ .keygen ∧ i ≠ .enc ∧ i ≠ .dec) →
    exec i s = .next (tick (acceptCommand i s))

/-! ## Status and invariants -/

/-- Rule R38: the fields of the status word. Stated of every state: that bits 5, 6 and 7 (`KEYOK`, `HEMPTY`, `HROOM`) are
these functions while `BUSY = 1` too is the model's choice (log 19, unsafe), since the rule says they are not to be relied
on then. -/
def Obligations.StatusLayout : Prop :=
  ∀ s : State,
    (status s).getLsbD 0 = busy s ∧ (status s).getLsbD 1 = s.done ∧ (status s).getLsbD 2 = s.doutValid ∧
    (status s).getLsbD 3 = s.fault ∧ (status s).getLsbD 4 = s.tblErr ∧ (status s).getLsbD 5 = keyOk s ∧
    (status s).getLsbD 6 = hEmpty s ∧ (status s).getLsbD 7 = hRoom s ∧ (status s).extractLsb' 8 3 = s.err ∧
    (status s).extractLsb' 11 5 = 0 ∧
    (busy s = true ↔ s.fsm ≠ .idle) ∧ (keyOk s = true ↔ ∀ n : Fin 20, s.rkv[n] = true) ∧
    (hEmpty s = true ↔ s.params.arxMode = .stateless ∨ s.sp = 0) ∧
    (hRoom s = true ↔ s.params.arxMode = .stateless ∨ ∀ d, s.params.histDepth = some d → s.sp + 40 ≤ d)

/-- The invariant holds after reset, for every choice of the parameters that rule R7 allows, and so for `State.reset`. -/
def Obligations.ResetMeetsInvariant : Prop :=
  Inv State.reset ∧ ∀ p : Params, (∀ d, p.histDepth = some d → 40 ≤ d) → Inv (State.resetFor p)

/-- From every state that meets the invariant, reached or not, idle or busy, a step leads to one that meets it: the status
registers agree (rules R29, R31, R32, R35, R261), every record is the record of its `x` (R161), the stack has room and
holds whole blocks between commands (R164, R206, R207), `RND` is a round number (R30). -/
def Obligations.StepKeepsInvariant : Prop :=
  ∀ s t : State, Inv s → step s = .next t → Inv t

/-- The same for one clock edge of the round-level view, which also accepts commands into `KEYGEN`, `ENC`, `DEC` and `SHORT`
(rules R98, R212 to R214). -/
def Obligations.EdgeKeepsInvariant : Prop :=
  ∀ s : State, Inv s → Inv (edge s)

/-- Rule R30: at the transaction level `FSM` is `IDLE` in every state a host can see, and no step stops. -/
def Obligations.IdleBetweenCommands : Prop :=
  ∀ s : State, s.fsm = .idle → ∃ t, step s = .next t ∧ t.fsm = .idle

/-- The bound of rule R318 in the round-level view: from any state that meets the invariant a running command is
complete after at most 20 iterations. -/
def Obligations.RunningCommandEnds : Prop :=
  ∀ s : State, Inv s → ∃ n ≤ 20, (tickTimes n s).fsm = .idle
end

