-- ==== Sys2Proof/Laws/State.lean ====
section
/-! SUPPORT. What each plain operation does to each field of the state, one lemma per field and operation. -/

namespace Sys2Proof.Machine

@[simp] theorem rkWrite_lanes (i : Fin 20) (v : Word32) (s : State) : (rkWrite i v s).lanes = s.lanes := rfl
@[simp] theorem rkWrite_ks (i : Fin 20) (v : Word32) (s : State) : (rkWrite i v s).ks = s.ks := rfl
@[simp] theorem rkWrite_rk (i : Fin 20) (v : Word32) (s : State) : (rkWrite i v s).rk = s.rk.set i v := rfl
@[simp] theorem rkWrite_rkv (i : Fin 20) (v : Word32) (s : State) : (rkWrite i v s).rkv = s.rkv.set i true := rfl
@[simp] theorem rkWrite_hist (i : Fin 20) (v : Word32) (s : State) : (rkWrite i v s).hist = s.hist := rfl
@[simp] theorem rkWrite_sp (i : Fin 20) (v : Word32) (s : State) : (rkWrite i v s).sp = s.sp := rfl
@[simp] theorem rkWrite_dout (i : Fin 20) (v : Word32) (s : State) : (rkWrite i v s).dout = s.dout := rfl
@[simp] theorem rkWrite_doutValid (i : Fin 20) (v : Word32) (s : State) : (rkWrite i v s).doutValid = s.doutValid := rfl
@[simp] theorem rkWrite_fsm (i : Fin 20) (v : Word32) (s : State) : (rkWrite i v s).fsm = s.fsm := rfl
@[simp] theorem rkWrite_rnd (i : Fin 20) (v : Word32) (s : State) : (rkWrite i v s).rnd = s.rnd := rfl
@[simp] theorem rkWrite_err (i : Fin 20) (v : Word32) (s : State) : (rkWrite i v s).err = s.err := rfl
@[simp] theorem rkWrite_fault (i : Fin 20) (v : Word32) (s : State) : (rkWrite i v s).fault = s.fault := rfl
@[simp] theorem rkWrite_done (i : Fin 20) (v : Word32) (s : State) : (rkWrite i v s).done = s.done := rfl
@[simp] theorem rkWrite_tblErr (i : Fin 20) (v : Word32) (s : State) : (rkWrite i v s).tblErr = s.tblErr := rfl
@[simp] theorem rkWrite_spSave (i : Fin 20) (v : Word32) (s : State) : (rkWrite i v s).spSave = s.spSave := rfl
@[simp] theorem rkWrite_mism (i : Fin 20) (v : Word32) (s : State) : (rkWrite i v s).mism = s.mism := rfl
@[simp] theorem rkWrite_params (i : Fin 20) (v : Word32) (s : State) : (rkWrite i v s).params = s.params := rfl
@[simp] theorem rkWrite_ports (i : Fin 20) (v : Word32) (s : State) : (rkWrite i v s).ports = s.ports := rfl
@[simp] theorem rkWrite_pending (i : Fin 20) (v : Word32) (s : State) : (rkWrite i v s).pending = s.pending := rfl
@[simp] theorem rkWrite_freeCtr (i : Fin 20) (v : Word32) (s : State) : (rkWrite i v s).freeCtr = s.freeCtr := rfl

@[simp] theorem forgetWork_lanes (s : State) : (forgetWork s).lanes = Config.freeLanes s.freeCtr := rfl
@[simp] theorem forgetWork_ks (s : State) : (forgetWork s).ks = Config.freeKs s.freeCtr := rfl
@[simp] theorem forgetWork_rk (s : State) : (forgetWork s).rk = s.rk := rfl
@[simp] theorem forgetWork_rkv (s : State) : (forgetWork s).rkv = s.rkv := rfl
@[simp] theorem forgetWork_hist (s : State) : (forgetWork s).hist = s.hist := rfl
@[simp] theorem forgetWork_sp (s : State) : (forgetWork s).sp = s.sp := rfl
@[simp] theorem forgetWork_dout (s : State) : (forgetWork s).dout = s.dout := rfl
@[simp] theorem forgetWork_doutValid (s : State) : (forgetWork s).doutValid = s.doutValid := rfl
@[simp] theorem forgetWork_fsm (s : State) : (forgetWork s).fsm = s.fsm := rfl
@[simp] theorem forgetWork_rnd (s : State) : (forgetWork s).rnd = Config.freeRnd s.freeCtr := rfl
@[simp] theorem forgetWork_err (s : State) : (forgetWork s).err = s.err := rfl
@[simp] theorem forgetWork_fault (s : State) : (forgetWork s).fault = s.fault := rfl
@[simp] theorem forgetWork_done (s : State) : (forgetWork s).done = s.done := rfl
@[simp] theorem forgetWork_tblErr (s : State) : (forgetWork s).tblErr = s.tblErr := rfl
@[simp] theorem forgetWork_spSave (s : State) : (forgetWork s).spSave = Config.freeSpSave s.freeCtr := rfl
@[simp] theorem forgetWork_mism (s : State) : (forgetWork s).mism = Config.freeMism s.freeCtr := rfl
@[simp] theorem forgetWork_params (s : State) : (forgetWork s).params = s.params := rfl
@[simp] theorem forgetWork_ports (s : State) : (forgetWork s).ports = s.ports := rfl
@[simp] theorem forgetWork_pending (s : State) : (forgetWork s).pending = s.pending := rfl
@[simp] theorem forgetWork_freeCtr (s : State) : (forgetWork s).freeCtr = s.freeCtr + 1 := rfl

@[simp] theorem beginCommand_lanes (s : State) : (beginCommand s).lanes = s.lanes := rfl
@[simp] theorem beginCommand_ks (s : State) : (beginCommand s).ks = s.ks := rfl
@[simp] theorem beginCommand_rk (s : State) : (beginCommand s).rk = s.rk := rfl
@[simp] theorem beginCommand_rkv (s : State) : (beginCommand s).rkv = s.rkv := rfl
@[simp] theorem beginCommand_hist (s : State) : (beginCommand s).hist = s.hist := rfl
@[simp] theorem beginCommand_sp (s : State) : (beginCommand s).sp = s.sp := rfl
@[simp] theorem beginCommand_dout (s : State) : (beginCommand s).dout = s.dout := rfl
@[simp] theorem beginCommand_doutValid (s : State) : (beginCommand s).doutValid = false := rfl
@[simp] theorem beginCommand_fsm (s : State) : (beginCommand s).fsm = s.fsm := rfl
@[simp] theorem beginCommand_rnd (s : State) : (beginCommand s).rnd = s.rnd := rfl
@[simp] theorem beginCommand_err (s : State) : (beginCommand s).err = 0 := rfl
@[simp] theorem beginCommand_fault (s : State) : (beginCommand s).fault = s.fault := rfl
@[simp] theorem beginCommand_done (s : State) : (beginCommand s).done = false := rfl
@[simp] theorem beginCommand_tblErr (s : State) : (beginCommand s).tblErr = s.tblErr := rfl
@[simp] theorem beginCommand_spSave (s : State) : (beginCommand s).spSave = s.spSave := rfl
@[simp] theorem beginCommand_mism (s : State) : (beginCommand s).mism = s.mism := rfl
@[simp] theorem beginCommand_params (s : State) : (beginCommand s).params = s.params := rfl
@[simp] theorem beginCommand_ports (s : State) : (beginCommand s).ports = s.ports := rfl
@[simp] theorem beginCommand_pending (s : State) : (beginCommand s).pending = s.pending := rfl
@[simp] theorem beginCommand_freeCtr (s : State) : (beginCommand s).freeCtr = s.freeCtr := rfl

@[simp] theorem complete_lanes (s : State) : (complete s).lanes = Config.freeLanes s.freeCtr := rfl
@[simp] theorem complete_ks (s : State) : (complete s).ks = Config.freeKs s.freeCtr := rfl
@[simp] theorem complete_rk (s : State) : (complete s).rk = s.rk := rfl
@[simp] theorem complete_rkv (s : State) : (complete s).rkv = s.rkv := rfl
@[simp] theorem complete_hist (s : State) : (complete s).hist = s.hist := rfl
@[simp] theorem complete_sp (s : State) : (complete s).sp = s.sp := rfl
@[simp] theorem complete_dout (s : State) : (complete s).dout = s.dout := rfl
@[simp] theorem complete_doutValid (s : State) : (complete s).doutValid = s.doutValid := rfl
@[simp] theorem complete_fsm (s : State) : (complete s).fsm = .idle := rfl
@[simp] theorem complete_rnd (s : State) : (complete s).rnd = Config.freeRnd s.freeCtr := rfl
@[simp] theorem complete_err (s : State) : (complete s).err = 0 := rfl
@[simp] theorem complete_fault (s : State) : (complete s).fault = s.fault := rfl
@[simp] theorem complete_done (s : State) : (complete s).done = true := rfl
@[simp] theorem complete_tblErr (s : State) : (complete s).tblErr = s.tblErr := rfl
@[simp] theorem complete_spSave (s : State) : (complete s).spSave = Config.freeSpSave s.freeCtr := rfl
@[simp] theorem complete_mism (s : State) : (complete s).mism = Config.freeMism s.freeCtr := rfl
@[simp] theorem complete_params (s : State) : (complete s).params = s.params := rfl
@[simp] theorem complete_ports (s : State) : (complete s).ports = s.ports := rfl
@[simp] theorem complete_pending (s : State) : (complete s).pending = s.pending := rfl
@[simp] theorem complete_freeCtr (s : State) : (complete s).freeCtr = s.freeCtr + 1 := rfl

@[simp] theorem raise_lanes (e : ErrCode) (s : State) : (raise e s).lanes = Config.freeLanes s.freeCtr := rfl
@[simp] theorem raise_ks (e : ErrCode) (s : State) : (raise e s).ks = Config.freeKs s.freeCtr := rfl
@[simp] theorem raise_rk (e : ErrCode) (s : State) : (raise e s).rk = s.rk := rfl
@[simp] theorem raise_rkv (e : ErrCode) (s : State) : (raise e s).rkv = s.rkv := rfl
@[simp] theorem raise_hist (e : ErrCode) (s : State) : (raise e s).hist = s.hist := rfl
@[simp] theorem raise_sp (e : ErrCode) (s : State) : (raise e s).sp = s.sp := rfl
@[simp] theorem raise_dout (e : ErrCode) (s : State) : (raise e s).dout = s.dout := rfl
@[simp] theorem raise_doutValid (e : ErrCode) (s : State) : (raise e s).doutValid = false := rfl
@[simp] theorem raise_fsm (e : ErrCode) (s : State) : (raise e s).fsm = .idle := rfl
@[simp] theorem raise_rnd (e : ErrCode) (s : State) : (raise e s).rnd = Config.freeRnd s.freeCtr := rfl
@[simp] theorem raise_err (e : ErrCode) (s : State) : (raise e s).err = errBits e := rfl
@[simp] theorem raise_fault (e : ErrCode) (s : State) : (raise e s).fault = true := rfl
@[simp] theorem raise_done (e : ErrCode) (s : State) : (raise e s).done = true := rfl
@[simp] theorem raise_tblErr (e : ErrCode) (s : State) : (raise e s).tblErr = s.tblErr := rfl
@[simp] theorem raise_spSave (e : ErrCode) (s : State) : (raise e s).spSave = Config.freeSpSave s.freeCtr := rfl
@[simp] theorem raise_mism (e : ErrCode) (s : State) : (raise e s).mism = Config.freeMism s.freeCtr := rfl
@[simp] theorem raise_params (e : ErrCode) (s : State) : (raise e s).params = s.params := rfl
@[simp] theorem raise_ports (e : ErrCode) (s : State) : (raise e s).ports = s.ports := rfl
@[simp] theorem raise_pending (e : ErrCode) (s : State) : (raise e s).pending = s.pending := rfl
@[simp] theorem raise_freeCtr (e : ErrCode) (s : State) : (raise e s).freeCtr = s.freeCtr + 1 := rfl

@[simp] theorem loadLanes_lanes (blk : Block) (s : State) : (loadLanes blk s).lanes = lanesOf blk := rfl
@[simp] theorem loadLanes_ks (blk : Block) (s : State) : (loadLanes blk s).ks = s.ks := rfl
@[simp] theorem loadLanes_rk (blk : Block) (s : State) : (loadLanes blk s).rk = s.rk := rfl
@[simp] theorem loadLanes_rkv (blk : Block) (s : State) : (loadLanes blk s).rkv = s.rkv := rfl
@[simp] theorem loadLanes_hist (blk : Block) (s : State) : (loadLanes blk s).hist = s.hist := rfl
@[simp] theorem loadLanes_sp (blk : Block) (s : State) : (loadLanes blk s).sp = s.sp := rfl
@[simp] theorem loadLanes_dout (blk : Block) (s : State) : (loadLanes blk s).dout = s.dout := rfl
@[simp] theorem loadLanes_doutValid (blk : Block) (s : State) : (loadLanes blk s).doutValid = s.doutValid := rfl
@[simp] theorem loadLanes_fsm (blk : Block) (s : State) : (loadLanes blk s).fsm = s.fsm := rfl
@[simp] theorem loadLanes_rnd (blk : Block) (s : State) : (loadLanes blk s).rnd = s.rnd := rfl
@[simp] theorem loadLanes_err (blk : Block) (s : State) : (loadLanes blk s).err = s.err := rfl
@[simp] theorem loadLanes_fault (blk : Block) (s : State) : (loadLanes blk s).fault = s.fault := rfl
@[simp] theorem loadLanes_done (blk : Block) (s : State) : (loadLanes blk s).done = s.done := rfl
@[simp] theorem loadLanes_tblErr (blk : Block) (s : State) : (loadLanes blk s).tblErr = s.tblErr := rfl
@[simp] theorem loadLanes_spSave (blk : Block) (s : State) : (loadLanes blk s).spSave = s.spSave := rfl
@[simp] theorem loadLanes_mism (blk : Block) (s : State) : (loadLanes blk s).mism = s.mism := rfl
@[simp] theorem loadLanes_params (blk : Block) (s : State) : (loadLanes blk s).params = s.params := rfl
@[simp] theorem loadLanes_ports (blk : Block) (s : State) : (loadLanes blk s).ports = s.ports := rfl
@[simp] theorem loadLanes_pending (blk : Block) (s : State) : (loadLanes blk s).pending = s.pending := rfl
@[simp] theorem loadLanes_freeCtr (blk : Block) (s : State) : (loadLanes blk s).freeCtr = s.freeCtr := rfl

@[simp] theorem enterShort_lanes (op : ShortOp) (s : State) : (enterShort op s).lanes = s.lanes := rfl
@[simp] theorem enterShort_ks (op : ShortOp) (s : State) : (enterShort op s).ks = s.ks := rfl
@[simp] theorem enterShort_rk (op : ShortOp) (s : State) : (enterShort op s).rk = s.rk := rfl
@[simp] theorem enterShort_rkv (op : ShortOp) (s : State) : (enterShort op s).rkv = s.rkv := rfl
@[simp] theorem enterShort_hist (op : ShortOp) (s : State) : (enterShort op s).hist = s.hist := rfl
@[simp] theorem enterShort_sp (op : ShortOp) (s : State) : (enterShort op s).sp = s.sp := rfl
@[simp] theorem enterShort_dout (op : ShortOp) (s : State) : (enterShort op s).dout = s.dout := rfl
@[simp] theorem enterShort_doutValid (op : ShortOp) (s : State) : (enterShort op s).doutValid = s.doutValid := rfl
@[simp] theorem enterShort_fsm (op : ShortOp) (s : State) : (enterShort op s).fsm = .short op := rfl
@[simp] theorem enterShort_rnd (op : ShortOp) (s : State) : (enterShort op s).rnd = s.rnd := rfl
@[simp] theorem enterShort_err (op : ShortOp) (s : State) : (enterShort op s).err = s.err := rfl
@[simp] theorem enterShort_fault (op : ShortOp) (s : State) : (enterShort op s).fault = s.fault := rfl
@[simp] theorem enterShort_done (op : ShortOp) (s : State) : (enterShort op s).done = s.done := rfl
@[simp] theorem enterShort_tblErr (op : ShortOp) (s : State) : (enterShort op s).tblErr = s.tblErr := rfl
@[simp] theorem enterShort_spSave (op : ShortOp) (s : State) : (enterShort op s).spSave = s.spSave := rfl
@[simp] theorem enterShort_mism (op : ShortOp) (s : State) : (enterShort op s).mism = s.mism := rfl
@[simp] theorem enterShort_params (op : ShortOp) (s : State) : (enterShort op s).params = s.params := rfl
@[simp] theorem enterShort_ports (op : ShortOp) (s : State) : (enterShort op s).ports = s.ports := rfl
@[simp] theorem enterShort_pending (op : ShortOp) (s : State) : (enterShort op s).pending = s.pending := rfl
@[simp] theorem enterShort_freeCtr (op : ShortOp) (s : State) : (enterShort op s).freeCtr = s.freeCtr := rfl

@[simp] theorem advancePorts_lanes (s : State) : (advancePorts s).lanes = s.lanes := by
  unfold advancePorts; split <;> simp [*]
@[simp] theorem advancePorts_ks (s : State) : (advancePorts s).ks = s.ks := by
  unfold advancePorts; split <;> simp [*]
@[simp] theorem advancePorts_rk (s : State) : (advancePorts s).rk = s.rk := by
  unfold advancePorts; split <;> simp [*]
@[simp] theorem advancePorts_rkv (s : State) : (advancePorts s).rkv = s.rkv := by
  unfold advancePorts; split <;> simp [*]
@[simp] theorem advancePorts_hist (s : State) : (advancePorts s).hist = s.hist := by
  unfold advancePorts; split <;> simp [*]
@[simp] theorem advancePorts_sp (s : State) : (advancePorts s).sp = s.sp := by
  unfold advancePorts; split <;> simp [*]
@[simp] theorem advancePorts_dout (s : State) : (advancePorts s).dout = s.dout := by
  unfold advancePorts; split <;> simp [*]
@[simp] theorem advancePorts_doutValid (s : State) : (advancePorts s).doutValid = s.doutValid := by
  unfold advancePorts; split <;> simp [*]
@[simp] theorem advancePorts_fsm (s : State) : (advancePorts s).fsm = s.fsm := by
  unfold advancePorts; split <;> simp [*]
@[simp] theorem advancePorts_rnd (s : State) : (advancePorts s).rnd = s.rnd := by
  unfold advancePorts; split <;> simp [*]
@[simp] theorem advancePorts_err (s : State) : (advancePorts s).err = s.err := by
  unfold advancePorts; split <;> simp [*]
@[simp] theorem advancePorts_fault (s : State) : (advancePorts s).fault = s.fault := by
  unfold advancePorts; split <;> simp [*]
@[simp] theorem advancePorts_done (s : State) : (advancePorts s).done = s.done := by
  unfold advancePorts; split <;> simp [*]
@[simp] theorem advancePorts_tblErr (s : State) : (advancePorts s).tblErr = s.tblErr := by
  unfold advancePorts; split <;> simp [*]
@[simp] theorem advancePorts_spSave (s : State) : (advancePorts s).spSave = s.spSave := by
  unfold advancePorts; split <;> simp [*]
@[simp] theorem advancePorts_mism (s : State) : (advancePorts s).mism = s.mism := by
  unfold advancePorts; split <;> simp [*]
@[simp] theorem advancePorts_params (s : State) : (advancePorts s).params = s.params := by
  unfold advancePorts; split <;> simp [*]
@[simp] theorem advancePorts_ports (s : State) : (advancePorts s).ports = s.pending.headD .quiet := by
  unfold advancePorts; split <;> simp [*]
@[simp] theorem advancePorts_pending (s : State) : (advancePorts s).pending = s.pending.tail := by
  unfold advancePorts; split <;> simp [*]
@[simp] theorem advancePorts_freeCtr (s : State) : (advancePorts s).freeCtr = s.freeCtr := by
  unfold advancePorts; split <;> simp [*]

@[simp] theorem histPush_lanes (x : Lane) (s : State) : (histPush x s).lanes = s.lanes := by
  unfold histPush; split <;> rfl
@[simp] theorem histPush_ks (x : Lane) (s : State) : (histPush x s).ks = s.ks := by
  unfold histPush; split <;> rfl
@[simp] theorem histPush_rk (x : Lane) (s : State) : (histPush x s).rk = s.rk := by
  unfold histPush; split <;> rfl
@[simp] theorem histPush_rkv (x : Lane) (s : State) : (histPush x s).rkv = s.rkv := by
  unfold histPush; split <;> rfl
@[simp] theorem histPush_dout (x : Lane) (s : State) : (histPush x s).dout = s.dout := by
  unfold histPush; split <;> rfl
@[simp] theorem histPush_doutValid (x : Lane) (s : State) : (histPush x s).doutValid = s.doutValid := by
  unfold histPush; split <;> rfl
@[simp] theorem histPush_fsm (x : Lane) (s : State) : (histPush x s).fsm = s.fsm := by
  unfold histPush; split <;> rfl
@[simp] theorem histPush_rnd (x : Lane) (s : State) : (histPush x s).rnd = s.rnd := by
  unfold histPush; split <;> rfl
@[simp] theorem histPush_err (x : Lane) (s : State) : (histPush x s).err = s.err := by
  unfold histPush; split <;> rfl
@[simp] theorem histPush_fault (x : Lane) (s : State) : (histPush x s).fault = s.fault := by
  unfold histPush; split <;> rfl
@[simp] theorem histPush_done (x : Lane) (s : State) : (histPush x s).done = s.done := by
  unfold histPush; split <;> rfl
@[simp] theorem histPush_tblErr (x : Lane) (s : State) : (histPush x s).tblErr = s.tblErr := by
  unfold histPush; split <;> rfl
@[simp] theorem histPush_spSave (x : Lane) (s : State) : (histPush x s).spSave = s.spSave := by
  unfold histPush; split <;> rfl
@[simp] theorem histPush_mism (x : Lane) (s : State) : (histPush x s).mism = s.mism := by
  unfold histPush; split <;> rfl
@[simp] theorem histPush_params (x : Lane) (s : State) : (histPush x s).params = s.params := by
  unfold histPush; split <;> rfl
@[simp] theorem histPush_ports (x : Lane) (s : State) : (histPush x s).ports = s.ports := by
  unfold histPush; split <;> rfl
@[simp] theorem histPush_pending (x : Lane) (s : State) : (histPush x s).pending = s.pending := by
  unfold histPush; split <;> rfl
@[simp] theorem histPush_freeCtr (x : Lane) (s : State) : (histPush x s).freeCtr = s.freeCtr := by
  unfold histPush; split <;> rfl

@[simp] theorem dropPopped_lanes (s : State) : (dropPopped s).lanes = s.lanes := by
  unfold dropPopped; split <;> rfl
@[simp] theorem dropPopped_ks (s : State) : (dropPopped s).ks = s.ks := by
  unfold dropPopped; split <;> rfl
@[simp] theorem dropPopped_rk (s : State) : (dropPopped s).rk = s.rk := by
  unfold dropPopped; split <;> rfl
@[simp] theorem dropPopped_rkv (s : State) : (dropPopped s).rkv = s.rkv := by
  unfold dropPopped; split <;> rfl
@[simp] theorem dropPopped_sp (s : State) : (dropPopped s).sp = s.sp := by
  unfold dropPopped; split <;> rfl
@[simp] theorem dropPopped_dout (s : State) : (dropPopped s).dout = s.dout := by
  unfold dropPopped; split <;> rfl
@[simp] theorem dropPopped_doutValid (s : State) : (dropPopped s).doutValid = s.doutValid := by
  unfold dropPopped; split <;> rfl
@[simp] theorem dropPopped_fsm (s : State) : (dropPopped s).fsm = s.fsm := by
  unfold dropPopped; split <;> rfl
@[simp] theorem dropPopped_rnd (s : State) : (dropPopped s).rnd = s.rnd := by
  unfold dropPopped; split <;> rfl
@[simp] theorem dropPopped_err (s : State) : (dropPopped s).err = s.err := by
  unfold dropPopped; split <;> rfl
@[simp] theorem dropPopped_fault (s : State) : (dropPopped s).fault = s.fault := by
  unfold dropPopped; split <;> rfl
@[simp] theorem dropPopped_done (s : State) : (dropPopped s).done = s.done := by
  unfold dropPopped; split <;> rfl
@[simp] theorem dropPopped_tblErr (s : State) : (dropPopped s).tblErr = s.tblErr := by
  unfold dropPopped; split <;> rfl
@[simp] theorem dropPopped_spSave (s : State) : (dropPopped s).spSave = s.spSave := by
  unfold dropPopped; split <;> rfl
@[simp] theorem dropPopped_mism (s : State) : (dropPopped s).mism = s.mism := by
  unfold dropPopped; split <;> rfl
@[simp] theorem dropPopped_params (s : State) : (dropPopped s).params = s.params := by
  unfold dropPopped; split <;> rfl
@[simp] theorem dropPopped_ports (s : State) : (dropPopped s).ports = s.ports := by
  unfold dropPopped; split <;> rfl
@[simp] theorem dropPopped_pending (s : State) : (dropPopped s).pending = s.pending := by
  unfold dropPopped; split <;> rfl
@[simp] theorem dropPopped_freeCtr (s : State) : (dropPopped s).freeCtr = s.freeCtr := by
  unfold dropPopped; split <;> rfl

@[simp] theorem resetEngine_lanes (s : State) : (resetEngine s).lanes = (State.resetFor s.params).lanes := rfl
@[simp] theorem resetEngine_ks (s : State) : (resetEngine s).ks = (State.resetFor s.params).ks := rfl
@[simp] theorem resetEngine_rk (s : State) : (resetEngine s).rk = (State.resetFor s.params).rk := rfl
@[simp] theorem resetEngine_rkv (s : State) : (resetEngine s).rkv = (State.resetFor s.params).rkv := rfl
@[simp] theorem resetEngine_hist (s : State) : (resetEngine s).hist = (State.resetFor s.params).hist := rfl
@[simp] theorem resetEngine_sp (s : State) : (resetEngine s).sp = (State.resetFor s.params).sp := rfl
@[simp] theorem resetEngine_dout (s : State) : (resetEngine s).dout = (State.resetFor s.params).dout := rfl
@[simp] theorem resetEngine_doutValid (s : State) : (resetEngine s).doutValid = (State.resetFor s.params).doutValid := rfl
@[simp] theorem resetEngine_fsm (s : State) : (resetEngine s).fsm = (State.resetFor s.params).fsm := rfl
@[simp] theorem resetEngine_rnd (s : State) : (resetEngine s).rnd = (State.resetFor s.params).rnd := rfl
@[simp] theorem resetEngine_err (s : State) : (resetEngine s).err = (State.resetFor s.params).err := rfl
@[simp] theorem resetEngine_fault (s : State) : (resetEngine s).fault = (State.resetFor s.params).fault := rfl
@[simp] theorem resetEngine_done (s : State) : (resetEngine s).done = (State.resetFor s.params).done := rfl
@[simp] theorem resetEngine_tblErr (s : State) : (resetEngine s).tblErr = (State.resetFor s.params).tblErr := rfl
@[simp] theorem resetEngine_spSave (s : State) : (resetEngine s).spSave = (State.resetFor s.params).spSave := rfl
@[simp] theorem resetEngine_mism (s : State) : (resetEngine s).mism = (State.resetFor s.params).mism := rfl
@[simp] theorem resetEngine_params (s : State) : (resetEngine s).params = s.params := rfl
@[simp] theorem resetEngine_ports (s : State) : (resetEngine s).ports = s.ports := rfl
@[simp] theorem resetEngine_pending (s : State) : (resetEngine s).pending = s.pending := rfl
@[simp] theorem resetEngine_freeCtr (s : State) : (resetEngine s).freeCtr = s.freeCtr := rfl

end Sys2Proof.Machine
end

