-- ==== Sys2Proof/Laws/Commands.lean ====
section
/-! SUPPORT. Everything the frame of a command can do (rules R230, R231, R262): the cases of `exec`, and of the checks. -/

namespace Sys2Proof.Machine

/-- The body of each command, with its operands taken from the ports of `s` (rules R232 to R239). -/
def bodyOf (i : Instr) (s : State) : State → Except ErrCode State :=
  match i with
  | .nop => bodyNop
  | .keygen => bodyKeygen (keyOperand s)
  | .enc => bodyEnc (blockOperand s)
  | .dec => bodyDec (blockOperand s)
  | .rdrk idx => bodyRdrk idx
  | .wrrk idx => bodyWrrk idx (rkOperand s)
  | .clrh => bodyClrh
  | .illegal w => bodyIllegal w

/-- Every command is a transaction (rule R230). -/
theorem exec_eq_transact (i : Instr) (s : State) : exec i s = transact i (bodyOf i s) s := by
  cases i <;> rfl

/-- Everything a command can do: an error, from the check or from the body, or the body's state completed. -/
theorem exec_cases (i : Instr) (s : State) :
    (∃ e, check i s = some e ∧ exec i s = .next (raise e s)) ∨
    (∃ e, check i s = none ∧ bodyOf i s (beginCommand s) = .error e ∧ exec i s = .next (raise e s)) ∨
    (∃ t, check i s = none ∧ bodyOf i s (beginCommand s) = .ok t ∧ exec i s = .next (complete t)) := by
  rw [exec_eq_transact, transact]
  cases hc : check i s with
  | some e => simp
  | none => cases hb : bodyOf i s (beginCommand s) <;> simp

/-- A command whose check and body raise nothing completes with the body's state. -/
theorem exec_ok {i : Instr} {s t : State} (hc : check i s = none) (hb : bodyOf i s (beginCommand s) = .ok t) :
    exec i s = .next (complete t) := by
  simp only [exec_eq_transact, transact, hc, hb]

/-- A command whose body raises an error. -/
theorem exec_bodyError {i : Instr} {s : State} {e : ErrCode} (hc : check i s = none)
    (hb : bodyOf i s (beginCommand s) = .error e) : exec i s = .next (raise e s) := by
  simp only [exec_eq_transact, transact, hc, hb]

/-- A command refused at acceptance. -/
theorem exec_checkError {i : Instr} {s : State} {e : ErrCode} (hc : check i s = some e) :
    exec i s = .next (raise e s) := by
  simp only [exec_eq_transact, transact, hc]

/-- An error ends the command as rule R262 says. -/
theorem endsWith_raise (e : ErrCode) (s : State) : EndsWith e s (raise e s) where
  completed := ⟨rfl, rfl⟩
  err := rfl
  fault := rfl
  invalid := rfl
  keys := ⟨rfl, rfl⟩
  history := ⟨rfl, rfl⟩
  dout := rfl
  same := ⟨rfl, rfl, rfl, rfl⟩

/-- No error has the code 0 (rule R261). -/
@[simp] theorem errBits_ne_zero (e : ErrCode) : errBits e ≠ 0#3 := by cases e <;> decide

/-- `TBLERR` is tested first (rule R231). -/
theorem check_eq_some_table {i s} (h : s.tblErr = true) : check i s = some .table := by simp [check, h]

/-- When the acceptance checks pass (rule R231). -/
theorem check_eq_none {i : Instr} {s : State} :
    check i s = none ↔ s.tblErr = false ∧ legal i = true ∧ keysWritten i s = true ∧ historyRoom i s = true := by
  unfold check
  cases s.tblErr <;> cases legal i <;> cases keysWritten i s <;> cases historyRoom i s <;> simp

/-- An index below 20 names a round key (rule R68). -/
theorem rkIndex_eq_some {idx : BitVec 5} (h : idx.toNat < 20) : rkIndex idx = some ⟨idx.toNat, h⟩ := by
  simp [rkIndex, h]

/-- A missing round key (rule R231). -/
theorem check_nokey {i s} (h : s.tblErr = false) (hl : legal i = true) (hk : keysWritten i s = false) : check i s = some .nokey := by
  simp [check, h, hl, hk]

end Sys2Proof.Machine
end

