-- ==== Sys2Proof/Laws/Rounds.lean ====
section
/-! SUPPORT. Everything the F1 calls and the rounds can do to the state (rules R163, R165, R201 to R207, R214). -/

namespace Sys2Proof.Machine

/-- A push in `HISTORY` mode: one record on top (rule R163). -/
theorem histPush_history {s : State} (x : Lane) (h : s.params.arxMode = .history) :
    histPush x s = { s with hist := s.hist.take s.sp ++ [recOf x], sp := s.sp + 1 } := by
  simp [histPush, h]

/-- A push does nothing in `STATELESS` mode (rule R169). -/
theorem histPush_stateless {s : State} (x : Lane) (h : s.params.arxMode = .stateless) : histPush x s = s := by
  simp [histPush, h]

/-- A round reads the key of its number. -/
theorem keyAt_eq_rkRead (s : State) (i : Nat) : rkRead s (roundIndex i) = keyAt s.rk i := rfl

/-- `EncRound` in `HISTORY` mode: the lanes, and two records on the stack. -/
theorem encRound_history {s : State} (i : Nat) (h : s.params.arxMode = .history) :
    encRound i s =
      { s with
        lanes := encLanes s.params.tables (keyAt s.rk i) s.lanes
        hist := s.hist.take s.sp ++ [recOf s.lanes.l1, recOf s.lanes.r0]
        sp := s.sp + 2 } := by
  have e : (s.hist.take s.sp ++ [recOf s.lanes.l1]).take (s.sp + 1) = s.hist.take s.sp ++ [recOf s.lanes.l1] :=
    List.take_of_length_le (by simp)
  simp [encRound, f1Fwd, histPush, h, keyAt_eq_rkRead, e]

/-- `EncRound` in `STATELESS` mode: the lanes alone. -/
theorem encRound_stateless {s : State} (i : Nat) (h : s.params.arxMode = .stateless) :
    encRound i s = { s with lanes := encLanes s.params.tables (keyAt s.rk i) s.lanes } := by
  simp [encRound, f1Fwd, histPush, h, keyAt_eq_rkRead]

/-- The encrypt rounds in `HISTORY` mode. -/
theorem encLoop_history {s : State} (n : Nat) (h : s.params.arxMode = .history) :
    encLoop n s =
      { s with
        lanes := encLanesLoop s.params.tables s.rk n s.lanes
        hist := if n = 0 then s.hist else s.hist.take s.sp ++ (encTraceLoop s.params.tables s.rk n s.lanes).map recOf
        sp := s.sp + 2 * n } := by
  induction n with
  | zero => simp [encLoop, encLanesLoop]
  | succ n ih =>
    rw [encLoop, ih, encRound_history _ (by simpa using h)]
    have hlen : ∀ m l, (encTraceLoop s.params.tables s.rk m l).length = 2 * m := by
      intro m l; induction m with
      | zero => rfl
      | succ m ih => simp [encTraceLoop, ih]; omega
    simp only [encLanesLoop, encTraceLoop]
    rcases Nat.eq_zero_or_pos n with rfl | hn
    · simp [encLanesLoop, encTraceLoop]
    · simp only [if_neg (show ¬ n = 0 by omega)]
      rw [List.take_of_length_le (by simp [hlen])]
      simp [Nat.mul_add, Nat.add_assoc]

/-- The encrypt rounds in `STATELESS` mode. -/
theorem encLoop_stateless {s : State} (n : Nat) (h : s.params.arxMode = .stateless) :
    encLoop n s = { s with lanes := encLanesLoop s.params.tables s.rk n s.lanes } := by
  induction n with
  | zero => rfl
  | succ n ih => rw [encLoop, ih, encRound_stateless _ (by simpa using h)]; rfl

/-- An encrypt round touches the lanes and the history only. -/
theorem encRound_frame (n : Nat) (s : State) : ∃ l h p, encRound n s = { s with lanes := l, hist := h, sp := p } := by
  cases hm : s.params.arxMode with
  | history => exact ⟨_, _, _, encRound_history n hm⟩
  | stateless => exact ⟨_, s.hist, s.sp, encRound_stateless n hm⟩

/-- The encrypt rounds touch the lanes and the history only. -/
theorem encLoop_frame (n : Nat) (s : State) : ∃ l h p, encLoop n s = { s with lanes := l, hist := h, sp := p } := by
  cases hm : s.params.arxMode with
  | history => exact ⟨_, _, _, encLoop_history n hm⟩
  | stateless => exact ⟨_, s.hist, s.sp, encLoop_stateless n hm⟩

/-- The `x` of the records on the stack, the top first. -/
def topXs (hist : List HistRec) (sp : Nat) : List Lane := (hist.take sp).reverse.map (·.x)

/-- The top record of a stack that is not empty. -/
theorem topXs_succ {hist : List HistRec} {m : Nat} (h : m < hist.length) :
    topXs hist (m + 1) = hist[m].x :: topXs hist m := by
  rw [topXs, topXs, List.take_succ_eq_append_getElem h, List.reverse_append, List.map_append]
  rfl

/-- Everything `F1Inv` can do in `HISTORY` mode (rule R165). -/
theorem f1Inv_history {s : State} (v k : Lane) (h : s.params.arxMode = .history) (hl : s.sp ≤ s.hist.length) :
    (∃ r, f1Inv v k s = .ok (some r, { s with sp := s.sp - 1 }) ∧ topXs s.hist s.sp = v :: topXs s.hist (s.sp - 1) ∧ 1 ≤ s.sp) ∨
    (f1Inv v k s = .error .nohist ∧ ¬ [v] <+: topXs s.hist s.sp) := by
  rcases Nat.eq_zero_or_pos s.sp with h0 | hp
  · right; simp [f1Inv, h, histPop, h0, topXs]
  · obtain ⟨m, hm⟩ : ∃ m, s.sp = m + 1 := ⟨s.sp - 1, by omega⟩
    have hlt : m < s.hist.length := by omega
    simp only [f1Inv, h, histPop, hm, topXs_succ hlt]
    by_cases hx : s.hist[m].x = v
    · left; simp [hlt, hx]
    · right; simp [hlt, hx]; simpa [eq_comm] using hx

/-- `F1Inv` raises NOHIST only, and in `HISTORY` mode only (rules R165, R169). -/
theorem f1Inv_error {s : State} {v k : Lane} {e} (h : f1Inv v k s = .error e) : e = .nohist ∧ s.params.arxMode = .history := by
  unfold f1Inv at h
  cases hm : s.params.arxMode with
  | stateless => simp [hm] at h
  | history =>
    rw [hm] at h; dsimp only at h
    refine ⟨?_, rfl⟩
    split at h
    · simpa using h.symm
    · split at h
      · simp at h
      · simpa using h.symm

/-- What `F1Inv` leaves when it raises nothing: one record fewer in `HISTORY` mode, nothing changed in `STATELESS`. -/
theorem f1Inv_ok {s t : State} {v k : Lane} {r} (h : f1Inv v k s = .ok (r, t)) :
    t = { s with sp := t.sp } ∧ (s.params.arxMode = .history → t.sp + 1 = s.sp) ∧ (s.params.arxMode = .stateless → t.sp = s.sp) := by
  unfold f1Inv at h
  cases hm : s.params.arxMode with
  | stateless => simp [hm] at h; obtain ⟨-, rfl⟩ := h; simp
  | history =>
    rw [hm] at h; dsimp only at h
    unfold histPop at h
    by_cases h0 : s.sp = 0
    · simp [h0] at h
    · rw [if_neg h0] at h
      cases hg : s.hist[s.sp - 1]? with
      | none => simp [hg] at h
      | some e =>
        simp only [hg, Option.map_some] at h
        split at h
        · simp at h; obtain ⟨-, rfl⟩ := h; simp; omega
        · simp at h

/-- So does a decrypt round. -/
theorem decRound_error {s : State} {i e} (h : decRound i s = .error e) : e = .nohist ∧ s.params.arxMode = .history := by
  unfold decRound at h
  dsimp only at h
  split at h
  · rename_i h1; simp at h; subst h; exact f1Inv_error h1
  · rename_i _ s1 h1
    split at h
    · rename_i h2; simp at h; subst h
      have := (f1Inv_ok h1).1
      have h3 := f1Inv_error h2
      rw [this] at h3; exact h3
    · simp at h

/-- What a decrypt round leaves when it raises nothing. -/
theorem decRound_ok {s t : State} {i} (h : decRound i s = .ok t) :
    t = { s with lanes := decLanes s.params.tables (keyAt s.rk i) s.lanes, sp := t.sp } ∧
    (s.params.arxMode = .history → t.sp + 2 = s.sp) ∧ (s.params.arxMode = .stateless → t.sp = s.sp) := by
  unfold decRound at h
  dsimp only at h
  split at h
  · simp at h
  · rename_i _ s1 h1
    split at h
    · simp at h
    · rename_i _ s2 h2
      obtain ⟨e1, a1, b1⟩ := f1Inv_ok h1
      obtain ⟨e2, a2, b2⟩ := f1Inv_ok h2
      have hm : s1.params.arxMode = s.params.arxMode := by rw [e1]
      rw [hm] at a2 b2
      simp at h
      subst h
      rw [e1] at e2
      refine ⟨?_, fun hh => ?_, fun hh => ?_⟩
      · rw [e2]; rfl
      · have := a1 hh; have := a2 hh; simp; omega
      · have := b1 hh; have := b2 hh; simp; omega

/-- So do the decrypt rounds. -/
theorem decLoop_error {s : State} {n e} (h : decLoop n s = .error e) : e = .nohist ∧ s.params.arxMode = .history := by
  induction n generalizing s with
  | zero => simp [decLoop] at h
  | succ n ih =>
    rw [decLoop] at h
    split at h
    · rename_i h1; simp at h; subst h; exact decRound_error h1
    · rename_i h1
      have := ih h
      rw [(decRound_ok h1).1] at this; exact this

/-- What the decrypt rounds leave when none raises (rules R205, R207). -/
theorem decLoop_ok {s t : State} {n} (h : decLoop n s = .ok t) :
    t = { s with lanes := decLanesLoop s.params.tables s.rk n s.lanes, sp := t.sp } ∧
    (s.params.arxMode = .history → t.sp + 2 * n = s.sp) ∧ (s.params.arxMode = .stateless → t.sp = s.sp) := by
  induction n generalizing s with
  | zero => simp [decLoop] at h; subst h; simp [decLanesLoop]
  | succ n ih =>
    rw [decLoop] at h
    split at h
    · simp at h
    · rename_i u h1
      obtain ⟨e1, a1, b1⟩ := decRound_ok h1
      obtain ⟨e2, a2, b2⟩ := ih h
      have hm : u.params.arxMode = s.params.arxMode := by rw [e1]
      rw [hm] at a2 b2
      refine ⟨?_, fun hh => ?_, fun hh => ?_⟩
      · rw [e1] at e2; rw [e2]; rfl
      · have := a1 hh; have := a2 hh; omega
      · have := b1 hh; have := b2 hh; omega

/-- `DecRound` in `STATELESS` mode: the lanes alone. -/
theorem decRound_stateless {s : State} (i : Nat) (h : s.params.arxMode = .stateless) :
    decRound i s = .ok { s with lanes := decLanes s.params.tables (keyAt s.rk i) s.lanes } := by
  simp [decRound, f1Inv, h, keyAt_eq_rkRead]

/-- The decrypt rounds in `STATELESS` mode. -/
theorem decLoop_stateless {s : State} (n : Nat) (h : s.params.arxMode = .stateless) :
    decLoop n s = .ok { s with lanes := decLanesLoop s.params.tables s.rk n s.lanes } := by
  induction n generalizing s with
  | zero => rfl
  | succ n ih => rw [decLoop, decRound_stateless _ h]; dsimp only; rw [ih (by exact h)]; rfl

/-- A decrypt round in `HISTORY` mode succeeds exactly when the two records on top carry the values it recovers. -/
theorem decRound_history {s : State} (i : Nat) (h : s.params.arxMode = .history) (hl : s.sp ≤ s.hist.length) :
    (∃ t, decRound i s = .ok t ∧ 2 ≤ s.sp ∧
      topXs s.hist s.sp = low16 (decTemp s.params.tables (keyAt s.rk i) s.lanes) ::
        high16 (decTemp s.params.tables (keyAt s.rk i) s.lanes) :: topXs s.hist (s.sp - 2)) ∨
    (decRound i s = .error .nohist ∧
      ¬ [low16 (decTemp s.params.tables (keyAt s.rk i) s.lanes), high16 (decTemp s.params.tables (keyAt s.rk i) s.lanes)]
        <+: topXs s.hist s.sp) := by
  unfold decRound
  simp only [keyAt_eq_rkRead]
  rcases f1Inv_history (low16 (decTemp s.params.tables (keyAt s.rk i) s.lanes)) (high16 (keyAt s.rk i)) h hl with
    ⟨r, h1, e1, p1⟩ | ⟨h1, e1⟩
  · rw [h1]
    dsimp only
    rcases f1Inv_history (s := { s with sp := s.sp - 1 }) (high16 (decTemp s.params.tables (keyAt s.rk i) s.lanes))
      (low16 (keyAt s.rk i)) h (by simp; omega) with ⟨r2, h2, e2, p2⟩ | ⟨h2, e2⟩
    · left
      rw [h2]
      simp only at e2 p2
      refine ⟨_, rfl, by omega, ?_⟩
      rw [e1, e2]; congr 2
    · right
      rw [h2]
      simp only at e2
      refine ⟨rfl, ?_⟩
      rw [e1]; simpa using e2
  · right
    rw [h1]
    refine ⟨rfl, fun hp => e1 ?_⟩
    exact (List.prefix_append [_] [_]).trans hp

/-- The decrypt rounds in `HISTORY` mode succeed exactly when the records on top carry the values they recover (R207). -/
theorem decLoop_history {s : State} (n : Nat) (h : s.params.arxMode = .history) (hl : s.sp ≤ s.hist.length) :
    (∃ t, decLoop n s = .ok t) ↔ decPopsLoop s.params.tables s.rk n s.lanes <+: topXs s.hist s.sp := by
  induction n generalizing s with
  | zero => simp [decLoop, decPopsLoop]
  | succ n ih =>
    rw [decLoop, decPopsLoop]
    rcases decRound_history n h hl with ⟨u, h1, p1, e1⟩ | ⟨h1, e1⟩
    · rw [h1]
      dsimp only
      obtain ⟨eu, a, -⟩ := decRound_ok h1
      have hu : u.sp = s.sp - 2 := by have := a h; omega
      have hpu : u.params = s.params := by rw [eu]
      have hru : u.rk = s.rk := by rw [eu]
      have hhu : u.hist = s.hist := by rw [eu]
      have hlu : u.lanes = decLanes s.params.tables (keyAt s.rk n) s.lanes := by rw [eu]
      rw [ih (by rw [hpu]; exact h) (by rw [hu, hhu]; omega), e1, hpu, hru, hhu, hlu, hu]
      simp
    · rw [h1]
      simp only [reduceCtorEq, exists_false, false_iff]
      exact fun hp => e1 ((List.prefix_append [_, _] _).trans hp)

/-- The form of `F1Inv` that raises nothing touches `SP` and `MISM` only (rule R214). -/
theorem f1InvQuiet_frame (v : Lane) (s : State) : ∃ p m, f1InvQuiet v s = { s with sp := p, mism := m } := by
  unfold f1InvQuiet
  split
  · exact ⟨_, _, rfl⟩
  · unfold histPop
    by_cases h : s.sp = 0
    · simp only [if_pos h]; exact ⟨_, _, rfl⟩
    · rw [if_neg h]
      cases s.hist[s.sp - 1]? with
      | none => exact ⟨_, _, rfl⟩
      | some e =>
        simp only [Option.map_some]
        split <;> exact ⟨_, _, rfl⟩

/-- A round of the round-level DEC touches the lanes, `SP` and `MISM` only (rule R214). -/
theorem decRoundQuiet_frame (i : Nat) (s : State) :
    ∃ p m, decRoundQuiet i s = { s with lanes := decLanes s.params.tables (keyAt s.rk i) s.lanes, sp := p, mism := m } := by
  unfold decRoundQuiet
  obtain ⟨p1, m1, h1⟩ := f1InvQuiet_frame (low16 (decTemp s.params.tables (rkRead s (roundIndex i)) s.lanes)) s
  obtain ⟨p2, m2, h2⟩ := f1InvQuiet_frame (high16 (decTemp s.params.tables (rkRead s (roundIndex i)) s.lanes)) { s with sp := p1, mism := m1 }
  simp only [h1, h2]
  exact ⟨_, _, rfl⟩

/-- `MISM` stays set (rule R214). -/
theorem f1InvQuiet_mism {v s} (h : s.mism = true) : (f1InvQuiet v s).mism = true := by
  unfold f1InvQuiet
  split
  · exact h
  · unfold histPop
    by_cases h0 : s.sp = 0
    · simp [h0]
    · rw [if_neg h0]
      cases s.hist[s.sp - 1]? with
      | none => rfl
      | some e => simp only [Option.map_some]; split <;> simp [h]

/-- Where `F1Inv` raises nothing, its other form does the same (rule R214). -/
theorem f1InvQuiet_ok {v k s r t} (h : f1Inv v k s = .ok (r, t)) : f1InvQuiet v s = t := by
  unfold f1Inv at h; unfold f1InvQuiet
  split at h
  · simp at h; simp [h.2]
  · split at h
    · cases h
    · rename_i e s' hp
      split at h
      · rename_i hx; simp at h; simp [hx, h.2]
      · cases h

/-- Where `F1Inv` raises, its other form sets `MISM` (rule R214). -/
theorem f1InvQuiet_error {v k s e} (h : f1Inv v k s = .error e) : (f1InvQuiet v s).mism = true := by
  unfold f1Inv at h; unfold f1InvQuiet
  split at h
  · cases h
  · split at h
    · simp
    · rename_i e s' hp
      split at h
      · cases h
      · rename_i hx; simp [hx]

/-- What the form of `F1Inv` that raises nothing does to `SP`, and when `MISM` stays clear. -/
theorem f1InvQuiet_sp (v : Lane) (s : State) : (f1InvQuiet v s).sp ≤ s.sp ∧
    ((f1InvQuiet v s).mism = false → s.mism = false ∧ (s.params.arxMode = .history → (f1InvQuiet v s).sp + 1 = s.sp)) ∧
    (s.params.arxMode = .stateless → f1InvQuiet v s = s) := by
  unfold f1InvQuiet
  cases hm : s.params.arxMode with
  | stateless => simp
  | history =>
    dsimp only
    unfold histPop
    by_cases h0 : s.sp = 0
    · simp [h0]
    · rw [if_neg h0]
      cases s.hist[s.sp - 1]? with
      | none => simp
      | some e =>
        simp only [Option.map_some]
        split
        · refine ⟨by simp, fun hmm => ⟨hmm, fun _ => ?_⟩, by simp⟩
          show s.sp - 1 + 1 = s.sp
          omega
        · simp

/-- `MISM` stays set through a round. -/
theorem decRoundQuiet_mism {i s} (h : s.mism = true) : (decRoundQuiet i s).mism = true :=
  f1InvQuiet_mism (f1InvQuiet_mism h)

/-- Where a decrypt round raises nothing, its other form does the same. -/
theorem decRoundQuiet_ok {i s t} (h : decRound i s = .ok t) : decRoundQuiet i s = t := by
  unfold decRound at h
  unfold decRoundQuiet
  dsimp only at h ⊢
  split at h
  · cases h
  · rename_i h1
    split at h
    · cases h
    · rename_i h2
      rw [f1InvQuiet_ok h1, f1InvQuiet_ok h2]; cases h; rfl

/-- Where a decrypt round raises, its other form sets `MISM`. -/
theorem decRoundQuiet_error {i s e} (h : decRound i s = .error e) : (decRoundQuiet i s).mism = true := by
  unfold decRound at h
  unfold decRoundQuiet
  dsimp only at h ⊢
  split at h
  · rename_i h1; exact f1InvQuiet_mism (f1InvQuiet_error h1)
  · rename_i h1
    split at h
    · rename_i h2; rw [f1InvQuiet_ok h1]; exact f1InvQuiet_error h2
    · cases h

/-- What a round of the round-level DEC does to `SP`, and when `MISM` stays clear. -/
theorem decRoundQuiet_sp (i : Nat) (s : State) : (decRoundQuiet i s).sp ≤ s.sp ∧
    ((decRoundQuiet i s).mism = false → s.mism = false ∧ (s.params.arxMode = .history → (decRoundQuiet i s).sp + 2 = s.sp)) := by
  unfold decRoundQuiet
  dsimp only
  generalize decTemp s.params.tables (rkRead s (roundIndex i)) s.lanes = T
  obtain ⟨p1, q1, -⟩ := f1InvQuiet_sp (low16 T) s
  obtain ⟨p2, q2, -⟩ := f1InvQuiet_sp (high16 T) (f1InvQuiet (low16 T) s)
  obtain ⟨_, _, e⟩ := f1InvQuiet_frame (low16 T) s
  have hp : (f1InvQuiet (low16 T) s).params = s.params := by rw [e]
  rw [hp] at q2
  refine ⟨by omega, fun h => ?_⟩
  obtain ⟨h1, h2⟩ := q2 h
  obtain ⟨h3, h4⟩ := q1 h1
  exact ⟨h3, fun hm => by have := h2 hm; have := h4 hm; omega⟩

end Sys2Proof.Machine
end

