-- ==== Sys2Proof/Laws/Frames.lean ====
section
/-! SUPPORT. Everything a command, an iteration of a running command and a step can do: the body frames, and the cases of
`exec`, `tick` and `step` from which each invariant follows. -/

namespace Sys2Proof.Machine

/-- A body that raises is that of DEC, of an illegal word, or of an index that names no key. -/
theorem body_error {i s e} (hc : check i s = none) (h : bodyOf i s (beginCommand s) = .error e) :
    e = .nohist ∧ i = .dec ∧ s.params.arxMode = .history := by
  have hl := (check_eq_none.1 hc).2.1
  cases i with
  | nop => cases h
  | keygen => cases h
  | enc => cases h
  | dec =>
    simp only [bodyOf, bodyDec] at h
    cases hd : decLoop 20 (loadLanes (blockOperand s) (beginCommand s)) with
    | error e' =>
      rw [hd] at h
      simp at h; subst h
      obtain ⟨rfl, hm⟩ := decLoop_error hd
      exact ⟨rfl, rfl, hm⟩
    | ok t => rw [hd] at h; cases h
  | rdrk idx =>
    have hi : idx.toNat < 20 := by simpa [legal, wellFormed] using hl
    simp [bodyOf, bodyRdrk, rkIndex_eq_some hi] at h
  | wrrk idx =>
    have hi : idx.toNat < 20 := by simpa [legal, wellFormed] using hl
    simp [bodyOf, bodyWrrk, rkIndex_eq_some hi] at h
  | clrh => simp only [bodyOf, bodyClrh] at h; split at h <;> cases h
  | illegal w => cases hl

/-- What every body leaves alone, and what it may write. -/
structure BodyFrame (i : Instr) (s t : State) : Prop where
  same : SameInstance s t
  fault : t.fault = s.fault
  fsm : t.fsm = s.fsm
  free : t.freeCtr = s.freeCtr
  keys : i ≠ .keygen → (∀ idx, i ≠ .wrrk idx) → SameKeys s t
  rkv : ∀ n : Fin 20, s.rkv[n] = true → t.rkv[n] = true
  hist : i ≠ .enc → i ≠ .dec → i ≠ .clrh → SameHistory s t
  valid : t.doutValid = true ↔ (i = .enc ∨ i = .dec ∨ ∃ idx, i = .rdrk idx)
  dout : t.doutValid = false → t.dout = s.dout

/-- Every body stays within its frame. -/
theorem body_frame {i : Instr} {s t : State} (h : bodyOf i s (beginCommand s) = .ok t) : BodyFrame i s t := by
  cases i with
  | nop => cases h; exact ⟨⟨rfl, rfl, rfl, rfl⟩, rfl, rfl, rfl, fun _ _ => ⟨rfl, rfl⟩, fun _ h => h, fun _ _ _ => ⟨rfl, rfl⟩, by simp, fun _ => rfl⟩
  | keygen => cases h; exact ⟨⟨rfl, rfl, rfl, rfl⟩, rfl, rfl, rfl, fun h => absurd rfl h, fun _ _ => by simp, fun _ _ _ => ⟨rfl, rfl⟩, by simp, fun _ => rfl⟩
  | enc =>
    cases h
    obtain ⟨l, hh, p, e⟩ := encLoop_frame 20 (loadLanes (blockOperand s) (beginCommand s))
    rw [e]
    exact ⟨⟨rfl, rfl, rfl, rfl⟩, rfl, rfl, rfl, fun _ _ => ⟨rfl, rfl⟩, fun _ h => h, fun h => absurd rfl h, by simp, fun h => by cases h⟩
  | dec =>
    simp only [bodyOf, bodyDec] at h
    cases hd : decLoop 20 (loadLanes (blockOperand s) (beginCommand s)) with
    | error e' => rw [hd] at h; cases h
    | ok u =>
      rw [hd] at h; cases h
      rw [(decLoop_ok hd).1]
      refine ⟨⟨?_, ?_, ?_, ?_⟩, ?_, ?_, ?_, fun _ _ => ⟨?_, ?_⟩, fun _ h => ?_, fun _ h => absurd rfl h, by simp, fun h => by cases h⟩ <;> simp_all
  | rdrk idx =>
    simp only [bodyOf, bodyRdrk] at h
    split at h
    · cases h; exact ⟨⟨rfl, rfl, rfl, rfl⟩, rfl, rfl, rfl, fun _ _ => ⟨rfl, rfl⟩, fun _ h => h, fun _ _ _ => ⟨rfl, rfl⟩, by simp, fun h => by cases h⟩
    · cases h
  | wrrk idx =>
    simp only [bodyOf, bodyWrrk] at h
    split at h
    · cases h
      refine ⟨⟨rfl, rfl, rfl, rfl⟩, rfl, rfl, rfl, fun _ h => absurd rfl (h idx), fun n h => ?_, fun _ _ _ => ⟨rfl, rfl⟩, by simp, fun h => rfl⟩
      simp [Vector.getElem_set]; exact .inr h
    · cases h
  | clrh =>
    simp only [bodyOf, bodyClrh] at h
    split at h
    · cases h; exact ⟨⟨rfl, rfl, rfl, rfl⟩, rfl, rfl, rfl, fun _ _ => ⟨rfl, rfl⟩, fun _ h => h, fun _ _ h => absurd rfl h, by simp, fun _ => rfl⟩
    · cases h; exact ⟨⟨rfl, rfl, rfl, rfl⟩, rfl, rfl, rfl, fun _ _ => ⟨rfl, rfl⟩, fun _ h => h, fun _ _ h => absurd rfl h, by simp, fun _ => rfl⟩
  | illegal w => cases h

/-- Everything a command can do, as one of two frames. -/
theorem exec_frame (i : Instr) (s : State) :
    (∃ e, exec i s = .next (raise e s)) ∨ (∃ t, exec i s = .next (complete t) ∧ BodyFrame i s t) := by
  rcases exec_cases i s with ⟨e, a, b⟩ | ⟨e, a, b, c⟩ | ⟨u, a, b, c⟩
  · exact .inl ⟨e, b⟩
  · exact .inl ⟨e, c⟩
  · exact .inr ⟨u, c, body_frame b⟩

/-- What an iteration of the running command never touches. -/
structure TickFrame (s t : State) : Prop where
  same : SameInstance s t
  fault : s.fault = true → t.fault = true
  rkv : ∀ n : Fin 20, s.rkv[n] = true → t.rkv[n] = true

/-- Every iteration stays within its frame. -/
theorem tick_frame (s : State) : TickFrame s (tick s) := by
  unfold tick
  split
  · exact ⟨⟨rfl, rfl, rfl, rfl⟩, id, fun _ => id⟩
  · unfold tickKeygen; dsimp only
    split
    · exact ⟨⟨rfl, rfl, rfl, rfl⟩, id, fun _ _ => by simp⟩
    · exact ⟨⟨rfl, rfl, rfl, rfl⟩, id, fun _ h => by simp [Vector.getElem_set]; exact .inr h⟩
  · unfold tickEnc; dsimp only
    obtain ⟨l, h, p, e⟩ := encRound_frame s.rnd.toNat s
    rw [e]
    split <;> exact ⟨⟨rfl, rfl, rfl, rfl⟩, id, fun _ => id⟩
  · unfold tickDec finishDec; dsimp only
    obtain ⟨p, m, e⟩ := decRoundQuiet_frame s.rnd.toNat s
    rw [e]
    split
    · split
      · exact ⟨⟨rfl, rfl, rfl, rfl⟩, fun _ => rfl, fun _ => id⟩
      · exact ⟨⟨by simp, by simp, by simp, by simp⟩, by simp, by simp⟩
    · exact ⟨⟨rfl, rfl, rfl, rfl⟩, id, fun _ => id⟩
  · rename_i op _
    cases op with
    | nop => exact ⟨⟨rfl, rfl, rfl, rfl⟩, id, fun _ => id⟩
    | rdrk idx => simp only [tickShort, bodyRdrk]; split <;> exact ⟨⟨rfl, rfl, rfl, rfl⟩, fun h => by simp [finishShort, h], fun _ => id⟩
    | wrrk idx v =>
      simp only [tickShort, bodyWrrk]; split
      · exact ⟨⟨rfl, rfl, rfl, rfl⟩, fun h => by simpa [finishShort], fun _ h => by simp [finishShort, Vector.getElem_set]; exact .inr h⟩
      · exact ⟨⟨rfl, rfl, rfl, rfl⟩, fun h => rfl, fun _ => id⟩
    | clrh => simp only [tickShort, bodyClrh]; split <;> exact ⟨⟨rfl, rfl, rfl, rfl⟩, id, fun _ => id⟩
    | error e => exact ⟨⟨rfl, rfl, rfl, rfl⟩, fun _ => rfl, fun _ => id⟩

/-- `exec` always answers a next state. -/
theorem exec_next (i : Instr) (s : State) : ∃ t, exec i s = .next t := by
  rcases exec_cases i s with ⟨e, -, h⟩ | ⟨e, -, -, h⟩ | ⟨t, -, -, h⟩ <;> exact ⟨_, h⟩

/-- Everything a step can do. -/
theorem step_cases (s : State) :
    (s.ports.rst = true ∧ step s = .next (advancePorts (resetEngine s))) ∨
    (s.ports.rst = false ∧ s.fsm ≠ .idle ∧ step s = .next (advancePorts (tick s))) ∨
    (s.ports.rst = false ∧ s.fsm = .idle ∧ s.ports.start = true ∧ ∃ t, exec (decode s.ports.cmd) s = .next t ∧ step s = .next (advancePorts t)) ∨
    (s.ports.rst = false ∧ s.fsm = .idle ∧ s.ports.start = false ∧ step s = .next (advancePorts s)) := by
  unfold step
  cases hr : s.ports.rst with
  | true => simp
  | false =>
    by_cases hb : s.fsm = .idle
    · cases hs : s.ports.start with
      | true =>
        obtain ⟨t, h⟩ := exec_next (decode s.ports.cmd) s
        simp [busy, hb, h, onNext]
      | false => simp [busy, hb]
    · simp [busy, hb]

end Sys2Proof.Machine
end

