-- ==== Sys2Proof/Laws/Words.lean ====
section
/-! SUPPORT. Halves, nibbles and lanes: taking apart what was put together. -/

namespace Sys2Proof.Machine

/-- The high half of a concatenation. -/
theorem high16_append (a b : Lane) : high16 (a ++ b) = a := by
  apply BitVec.eq_of_getLsbD_eq
  intro i hi
  have h1 : ¬ 16 + i < 16 := by omega
  have h2 : 16 + i - 16 = i := by omega
  simp only [high16, BitVec.getLsbD_extractLsb', BitVec.getLsbD_append, hi, decide_true, Bool.true_and, h1, h2, if_false]

/-- The low half of a concatenation. -/
theorem low16_append (a b : Lane) : low16 (a ++ b) = b := by
  apply BitVec.eq_of_getLsbD_eq
  intro i hi
  simp only [low16, BitVec.getLsbD_extractLsb', BitVec.getLsbD_append, hi, decide_true, Bool.true_and, Nat.zero_add, if_true]

/-- A 32-bit value is the concatenation of its halves (rule R12). -/
theorem high16_append_low16 (v : Word32) : high16 v ++ low16 v = v := by
  apply BitVec.eq_of_getLsbD_eq
  intro i hi
  simp only [BitVec.getLsbD_append, low16, high16, BitVec.getLsbD_extractLsb', Nat.zero_add]
  split
  · simp [*]
  · have h1 : i - 16 < 16 := by omega
    have h2 : 16 + (i - 16) = i := by omega
    simp only [h1, h2, decide_true, Bool.true_and]

/-- Loading what was stored gives the lanes back (rules R200, R203). -/
theorem lanesOf_blockOf (l : Lanes) : lanesOf (blockOf l) = l := by
  have h : ∀ (n : Nat) (x : Lane), (∀ i < 16, (blockOf l).getLsbD (n + i) = x.getLsbD i) →
      (blockOf l).extractLsb' n 16 = x := fun n x hx =>
    BitVec.eq_of_getLsbD_eq fun i hi => by simp only [BitVec.getLsbD_extractLsb', hi, decide_true, Bool.true_and, hx i hi]
  simp only [lanesOf]
  cases l
  congr 1 <;> apply h <;> intro i hi <;> simp only [blockOf, BitVec.getLsbD_append] <;> interval_cases i <;> rfl

/-- Storing what was loaded gives the block back (rules R200, R203). -/
theorem blockOf_lanesOf (b : Block) : blockOf (lanesOf b) = b := by
  apply BitVec.eq_of_getLsbD_eq
  intro i hi
  simp only [blockOf, lanesOf, BitVec.getLsbD_append, BitVec.getLsbD_extractLsb']
  interval_cases i <;> simp

/-- A 32-bit value is determined by its eight nibbles (rule R67). -/
theorem eq_of_nibbles {v w : Word32} (h : ∀ j < 8, nibbleOf j v = nibbleOf j w) : v = w := by
  apply BitVec.eq_of_getLsbD_eq
  intro i hi
  have := congrArg (fun n : Nibble => n.getLsbD (i % 4)) (h (i / 4) (by omega))
  simpa [nibbleOf, BitVec.getLsbD_extractLsb', Nat.mod_lt, Nat.div_add_mod] using this

/-- Rotation distributes over XOR (rule R12). -/
theorem rotl_xor (x y : Lane) (n : Nat) : (x ^^^ y).rotateLeft n = x.rotateLeft n ^^^ y.rotateLeft n := by
  ext i hi
  simp only [BitVec.getElem_rotateLeft, BitVec.getElem_xor]
  split <;> simp

end Sys2Proof.Machine
end

