-- ==== Sys2Proof/Laws/Lookup.lean ====
section
/-! SUPPORT. What the two shared layer operations do, `mapNibbles` nibble by nibble and `gatherWord` bit by bit, and
which tables have `TABLES_OK`. -/

namespace Sys2Proof.Machine

/-- Everything the substitution layers do: nibble `j` of the result is the image of nibble `j` (rules R126, R127). -/
theorem nibbleOf_mapNibbles (f : Nibble → Nibble) (v : Word32) (j : Nat) (h : j < 8) :
    nibbleOf j (mapNibbles f v) = f (nibbleOf j v) := by
  apply BitVec.eq_of_getLsbD_eq
  intro i hi
  rw [nibbleOf, BitVec.getLsbD_extractLsb', mapNibbles]
  simp only [BitVec.getLsbD_append]
  interval_cases j <;> interval_cases i <;> rfl

/-- Bit `i` of a value built bit by bit. -/
theorem getLsbD_gatherBits (f : Nat → Bool) (n i : Nat) :
    (gatherBits f n).getLsbD i = (decide (i < n) && f i) := by
  induction n with
  | zero => simp [gatherBits]
  | succ n ih =>
    rw [gatherBits, BitVec.getLsbD_cons, ih]
    by_cases h : i = n
    · simp [h]
    · have : i < n + 1 ↔ i < n := by omega
      simp [h, this]

/-- Everything the permutation layers do: bit `i` of the result (rules R128, R129). -/
theorem getLsbD_gatherWord (p : BitPos → BitPos) (w : Word32) (i : Nat) (h : i < 32) :
    (gatherWord p w).getLsbD i = w.getLsbD (p (BitVec.ofNat 5 i)).toNat := by
  simp only [gatherWord, getLsbD_gatherBits, h, decide_true, Bool.true_and]

/-- Substitution through inverse tables. -/
theorem mapNibbles_inverse {f g : Nibble → Nibble} (h : ∀ n, f (g n) = n) (v : Word32) : mapNibbles f (mapNibbles g v) = v :=
  eq_of_nibbles fun j hj => by rw [nibbleOf_mapNibbles _ _ _ hj, nibbleOf_mapNibbles _ _ _ hj, h]

/-- Gathering through inverse tables. -/
theorem gatherWord_inverse {p q : BitPos → BitPos} (h : ∀ i, p (q i) = i) (w : Word32) : gatherWord q (gatherWord p w) = w := by
  apply BitVec.eq_of_getLsbD_eq
  intro i hi
  rw [getLsbD_gatherWord _ _ _ hi, getLsbD_gatherWord _ _ _ (q _).isLt]
  simp [h, Nat.mod_eq_of_lt hi]

/-- The tables with `TABLES_OK` are those of a bijection of the nibbles and one of the bit positions (rule R124). -/
theorem tablesOk_iff (t : Tables) : TablesOk t ↔ ∃ s p, t = Tables.ofPerms s p := by
  constructor
  · intro ⟨s1, s2, p1, p2⟩
    refine ⟨⟨sboxAt t, invSboxAt t, s1, s2⟩, ⟨permAt t, invPermAt t, p1, p2⟩, ?_⟩
    obtain ⟨a, b, c, d⟩ := t
    simp only [Tables.ofPerms, Tables.mk.injEq]
    refine ⟨?_, ?_, ?_, ?_⟩ <;> apply Vector.ext <;> intro i hi <;> rw [Vector.getElem_ofFn] <;> rfl
  · rintro ⟨s, p, rfl⟩
    refine ⟨fun n => ?_, fun n => ?_, fun i => ?_, fun i => ?_⟩ <;>
      simp [Tables.ofPerms, sboxAt, invSboxAt, permAt, invPermAt]

/-- The tables of the instance meet `TABLES_OK` (rules R7, R8). -/
theorem tablesOk_config : TablesOk Config.tables := (tablesOk_iff _).2 ⟨_, _, rfl⟩

/-- So its self-check passes (rules R125, R302). -/
theorem selfCheckFails_config : selfCheckFails Config.tables = false := by
  rw [selfCheckFails, decide_eq_true tablesOk_config, Bool.not_true]

end Sys2Proof.Machine
end

