-- ==== Sys2Proof/Laws/Memory.lean ====
section
/-! SUPPORT. The two writable memories: reads after writes, and that every memory operation keeps the canonical form
`Memory.wf` (rules R62, R63, R163, R165). -/

namespace Sys2Proof.Machine

/-- The canonical form, spelled out. -/
theorem Memory.wf_iff (s : State) :
    Memory.wf s = true ↔ s.hist.length = s.sp ∧ (∀ r ∈ s.hist, r = recOf r.x) ∧
      (s.params.arxMode = .stateless → s.sp = 0) ∧
      (s.params.arxMode = .history → ∀ d, s.params.histDepth = some d → s.sp ≤ d) := by
  unfold Memory.wf
  cases s.params.arxMode <;> cases s.params.histDepth <;> simp [and_assoc]

/-- The memory after reset is canonical. -/
theorem Memory.wf_resetFor (p : Params) : Memory.wf (State.resetFor p) = true := by
  simp [Memory.wf_iff, State.resetFor]

/-- The memory of `State.reset` is canonical. -/
theorem Memory.wf_reset : Memory.wf State.reset = true := Memory.wf_resetFor _

/-- A write of a round key keeps the form. -/
theorem Memory.wf_rkWrite (i : Fin 20) (v : Word32) (s : State) : Memory.wf (rkWrite i v s) = Memory.wf s := rfl

/-- A push where there is room keeps the form (rule R163). -/
theorem Memory.wf_histPush {s : State} (x : Lane) (h : Memory.wf s = true)
    (room : s.params.arxMode = .history → ∀ d, s.params.histDepth = some d → s.sp + 1 ≤ d) :
    Memory.wf (histPush x s) = true := by
  rw [Memory.wf_iff] at h
  obtain ⟨h1, h2, h3, h4⟩ := h
  cases hm : s.params.arxMode with
  | stateless => rw [histPush_stateless x hm, Memory.wf_iff]; exact ⟨h1, h2, h3, h4⟩
  | history =>
    rw [histPush_history x hm, Memory.wf_iff]
    refine ⟨by simp [h1], fun r hr => ?_, by simp [hm], room⟩
    simp only [List.mem_append, List.mem_singleton] at hr
    rcases hr with hr | rfl
    · exact h2 r (List.mem_of_mem_take hr)
    · rfl

/-- A pop, its record dropped, keeps the form (rule R165). -/
theorem Memory.wf_histPop {s t : State} {e : HistRec} (h : Memory.wf s = true) (hp : histPop s = some (e, t)) :
    Memory.wf (dropPopped t) = true := by
  rw [Memory.wf_iff] at h
  obtain ⟨h1, h2, h3, h4⟩ := h
  unfold histPop at hp
  split at hp
  · cases hp
  · rename_i h0
    obtain ⟨x, -, hx⟩ := Option.map_eq_some_iff.1 hp
    cases hx
    cases hm : s.params.arxMode with
    | stateless => exact absurd (h3 hm) h0
    | history =>
      simp only [Memory.wf_iff, dropPopped, hm, List.length_take, reduceCtorEq, false_implies, true_and]
      refine ⟨by omega, fun r hr => h2 r (List.mem_of_mem_take hr), fun _ d hd => ?_⟩
      have := h4 hm d hd
      omega

/-- A push is undone by a pop (rules R163, R165), up to the record, which stays until it is dropped. -/
theorem histPop_histPush {s : State} (x : Lane) (hm : s.params.arxMode = .history) (h : s.hist.length = s.sp) :
    histPop (histPush x s) = some (recOf x, { histPush x s with sp := s.sp }) := by
  rw [histPush_history x hm]
  simp [histPop, ← h]

/-- A round key reads back as written (rule R62). -/
theorem rkRead_rkWrite (s : State) (i : Fin 20) (v : Word32) : rkRead (rkWrite i v s) i = v := by
  simp [rkRead]

/-- A write of a round key leaves the other entries (rule R62). -/
theorem rkRead_rkWrite_ne (s : State) {i j : Fin 20} (v : Word32) (h : i ≠ j) :
    rkRead (rkWrite i v s) j = rkRead s j := by
  have : i.val ≠ j.val := fun e => h (Fin.ext e)
  simp [rkRead, this]

end Sys2Proof.Machine
end

