-- ==== Sys2Proof/Laws/PerInstr.lean ====
section
/-! SUPPORT. Statements made for every command, one lemma per constructor. `OpcodeField`: the two fields of a command's
word are those of its row of the opcode table (rules R90, R91, R93). -/

namespace Sys2Proof.Laws.OpcodeField

/-- The opcode and the index that the opcode table gives a command; an illegal word is kept whole. -/
def Statement (i : Instr) : Prop :=
  wellFormed i = true →
    match i with
    | .nop => opField (encode i) = 0 ∧ idxField (encode i) = 0
    | .keygen => opField (encode i) = 1 ∧ idxField (encode i) = 0
    | .enc => opField (encode i) = 2 ∧ idxField (encode i) = 0
    | .dec => opField (encode i) = 3 ∧ idxField (encode i) = 0
    | .rdrk idx => opField (encode i) = 4 ∧ idxField (encode i) = idx
    | .wrrk idx => opField (encode i) = 5 ∧ idxField (encode i) = idx
    | .clrh => opField (encode i) = 6 ∧ idxField (encode i) = 0
    | .illegal w => encode i = w ∧ illegalWord (encode i) = true

theorem nop : Statement .nop := fun _ => by decide

theorem keygen : Statement .keygen := fun _ => by decide

theorem enc : Statement .enc := fun _ => by decide

theorem dec : Statement .dec := fun _ => by decide

theorem rdrk (idx : BitVec 5) : Statement (.rdrk idx) := fun _ => by revert idx; decide

theorem wrrk (idx : BitVec 5) : Statement (.wrrk idx) := fun _ => by revert idx; decide

theorem clrh : Statement .clrh := fun _ => by decide

theorem illegal (w : BitVec 8) : Statement (.illegal w) := fun h => ⟨rfl, h⟩

end Sys2Proof.Laws.OpcodeField
end

