-- ==== Sys2Proof/Laws/Ports.lean ====
section
/-! SUPPORT. What does not look at the input ports: an operation on a state with other port values gives the same state
with those port values. -/

namespace Sys2Proof.Machine

/-- Other values on the input ports. -/
def setPorts (p : Ports) (s : State) : State := { s with ports := p }

/-- The same in the result of a body. -/
def mapOk (p : Ports) : Except ErrCode State → Except ErrCode State
  | .ok t => .ok (setPorts p t)
  | .error e => .error e

/-- `encLoop` does not look at the ports. -/
theorem encLoop_setPorts (p : Ports) (n : Nat) (s : State) : encLoop n (setPorts p s) = setPorts p (encLoop n s) := by
  cases hm : s.params.arxMode with
  | history => rw [encLoop_history n hm, encLoop_history n (by exact hm)]; rfl
  | stateless => rw [encLoop_stateless n hm, encLoop_stateless n (by exact hm)]; rfl

/-- `encRound` does not look at the ports. -/
theorem encRound_setPorts (p : Ports) (n : Nat) (s : State) : encRound n (setPorts p s) = setPorts p (encRound n s) := by
  cases hm : s.params.arxMode with
  | history => rw [encRound_history n hm, encRound_history n (by exact hm)]; rfl
  | stateless => rw [encRound_stateless n hm, encRound_stateless n (by exact hm)]; rfl

/-- `histPop` does not look at the ports. -/
theorem histPop_setPorts (p : Ports) (s : State) : histPop (setPorts p s) = (histPop s).map fun (e, t) => (e, setPorts p t) := by
  unfold histPop setPorts
  dsimp only
  split
  · rfl
  · cases s.hist[s.sp - 1]? <;> rfl

/-- `f1Inv` does not look at the ports. -/
theorem f1Inv_setPorts (p : Ports) (v k : Lane) (s : State) :
    f1Inv v k (setPorts p s) = match f1Inv v k s with | .ok (r, t) => .ok (r, setPorts p t) | .error e => .error e := by
  unfold f1Inv
  rw [histPop_setPorts]
  have : (setPorts p s).params = s.params := rfl
  rw [this]
  cases s.params.arxMode with
  | stateless => rfl
  | history =>
    dsimp only
    cases histPop s with
    | none => rfl
    | some q => obtain ⟨e, t⟩ := q; simp only [Option.map_some]; split <;> rfl

/-- `f1InvQuiet` does not look at the ports. -/
theorem f1InvQuiet_setPorts (p : Ports) (v : Lane) (s : State) : f1InvQuiet v (setPorts p s) = setPorts p (f1InvQuiet v s) := by
  unfold f1InvQuiet
  rw [histPop_setPorts]
  have : (setPorts p s).params = s.params := rfl
  rw [this]
  cases s.params.arxMode with
  | stateless => rfl
  | history =>
    dsimp only
    cases histPop s with
    | none => rfl
    | some q => obtain ⟨e, t⟩ := q; simp only [Option.map_some]; split <;> rfl

/-- `decRound` does not look at the ports. -/
theorem decRound_setPorts (p : Ports) (i : Nat) (s : State) : decRound i (setPorts p s) = mapOk p (decRound i s) := by
  unfold decRound
  have h1 : (setPorts p s).params = s.params := rfl
  have h2 : (setPorts p s).lanes = s.lanes := rfl
  have h3 : ∀ j, rkRead (setPorts p s) j = rkRead s j := fun _ => rfl
  simp only [h1, h2, h3, f1Inv_setPorts]
  cases f1Inv (low16 (decTemp s.params.tables (rkRead s (roundIndex i)) s.lanes)) (high16 (rkRead s (roundIndex i))) s with
  | error e => rfl
  | ok q =>
    obtain ⟨r, t⟩ := q
    simp only [f1Inv_setPorts]
    cases f1Inv (high16 (decTemp s.params.tables (rkRead s (roundIndex i)) s.lanes)) (low16 (rkRead s (roundIndex i))) t with
    | error e => rfl
    | ok q => rfl

/-- `decRoundQuiet` does not look at the ports. -/
theorem decRoundQuiet_setPorts (p : Ports) (i : Nat) (s : State) : decRoundQuiet i (setPorts p s) = setPorts p (decRoundQuiet i s) := by
  unfold decRoundQuiet
  have h1 : (setPorts p s).params = s.params := rfl
  have h2 : (setPorts p s).lanes = s.lanes := rfl
  have h3 : ∀ j, rkRead (setPorts p s) j = rkRead s j := fun _ => rfl
  simp only [h1, h2, h3, f1InvQuiet_setPorts]
  rfl

/-- `decLoop` does not look at the ports. -/
theorem decLoop_setPorts (p : Ports) (n : Nat) (s : State) : decLoop n (setPorts p s) = mapOk p (decLoop n s) := by
  induction n generalizing s with
  | zero => rfl
  | succ n ih =>
    rw [decLoop, decLoop, decRound_setPorts]
    cases decRound n s with
    | error e => rfl
    | ok t => exact ih t

/-- `dropPopped` does not look at the ports. -/
theorem dropPopped_setPorts (p : Ports) (s : State) : dropPopped (setPorts p s) = setPorts p (dropPopped s) := by
  unfold dropPopped
  have h1 : (setPorts p s).params = s.params := rfl
  rw [h1]; split <;> rfl

/-- `finishShort` does not look at the ports. -/
theorem finishShort_setPorts (p s r) : finishShort (setPorts p s) (mapOk p r) = setPorts p (finishShort s r) := by
  cases r <;> rfl

/-- `bodyRdrk` does not look at the ports. -/
theorem bodyRdrk_setPorts (p idx s) : bodyRdrk idx (setPorts p s) = mapOk p (bodyRdrk idx s) := by
  unfold bodyRdrk; split <;> rfl

/-- `bodyWrrk` does not look at the ports. -/
theorem bodyWrrk_setPorts (p idx v s) : bodyWrrk idx v (setPorts p s) = mapOk p (bodyWrrk idx v s) := by
  unfold bodyWrrk; split <;> rfl

/-- `bodyClrh` does not look at the ports. -/
theorem bodyClrh_setPorts (p s) : bodyClrh (setPorts p s) = mapOk p (bodyClrh s) := by
  unfold bodyClrh; have h1 : (setPorts p s).params = s.params := rfl
  rw [h1]; split <;> rfl

/-- `bodyDec` does not look at the ports. -/
theorem bodyDec_setPorts (p b s) : bodyDec b (setPorts p s) = mapOk p (bodyDec b s) := by
  unfold bodyDec
  have : loadLanes b (setPorts p s) = setPorts p (loadLanes b s) := rfl
  rw [this, decLoop_setPorts]
  cases decLoop 20 (loadLanes b s) with
  | error e => rfl
  | ok t =>
    simp only [mapOk]
    rw [dropPopped_setPorts]; rfl

/-- `bodyEnc` does not look at the ports. -/
theorem bodyEnc_setPorts (p b s) : bodyEnc b (setPorts p s) = mapOk p (bodyEnc b s) := by
  unfold bodyEnc
  have : loadLanes b (setPorts p s) = setPorts p (loadLanes b s) := rfl
  rw [this, encLoop_setPorts]; rfl

/-- `tick` does not look at the ports. -/
theorem tick_setPorts (p : Ports) (s : State) : tick (setPorts p s) = setPorts p (tick s) := by
  unfold tick
  have : (setPorts p s).fsm = s.fsm := rfl
  rw [this]
  cases s.fsm with
  | idle => rfl
  | keygen => simp only [tickKeygen]; have h : (setPorts p s).rnd = s.rnd := rfl
              rw [h]; split <;> rfl
  | enc =>
    simp only [tickEnc]; have h : (setPorts p s).rnd = s.rnd := rfl
    rw [h, encRound_setPorts]; split <;> rfl
  | dec =>
    simp only [tickDec, finishDec]; have h : (setPorts p s).rnd = s.rnd := rfl
    have h2 : ∀ t, (setPorts p t).mism = t.mism := fun _ => rfl
    rw [h, decRoundQuiet_setPorts, h2, dropPopped_setPorts]; split
    · split <;> rfl
    · rfl
  | short op =>
    cases op with
    | nop => rfl
    | rdrk idx => simp only [tickShort, bodyRdrk_setPorts, finishShort_setPorts]
    | wrrk idx v => simp only [tickShort, bodyWrrk_setPorts, finishShort_setPorts]
    | clrh => simp only [tickShort, bodyClrh_setPorts, finishShort_setPorts]
    | error e => rfl

/-- `check` does not look at the ports. -/
theorem check_setPorts (p i s) : check i (setPorts p s) = check i s := by
  unfold check keysWritten historyRoom keyOk hRoom
  have h1 : (setPorts p s).params = s.params := rfl
  have h2 : (setPorts p s).rkv = s.rkv := rfl
  have h3 : (setPorts p s).tblErr = s.tblErr := rfl
  have h4 : (setPorts p s).sp = s.sp := rfl
  rw [h1, h2, h3, h4]

end Sys2Proof.Machine
end

