-- ==== Sys2Proof/Tests/Slice0.lean ====
section
/-! SUPPORT. Small tests. Expected values come from spec/95_test_vectors.md (its section is named at each test) or from the
encoding tables of spec/30_encoding.md. The `test_hyps_…` theorems show, for each statement that has hypotheses, a
concrete state and operands that meet all of them together. -/

namespace Sys2Proof.Tests

open Sys2Proof.Machine

set_option Elab.async false

/-! ## Configurations of spec/95_test_vectors.md section 2, and states built from them -/

/-- TCFG-ID: identity tables. -/
def tabId : Tables where
  sbox := Vector.ofFn fun i => BitVec.ofNat 4 i.val
  invSbox := Vector.ofFn fun i => BitVec.ofNat 4 i.val
  perm := Vector.ofFn fun i => BitVec.ofNat 5 i.val
  invPerm := Vector.ofFn fun i => BitVec.ofNat 5 i.val

/-- TCFG-T1: `PERM[i] = (13 * i + 7) mod 32`; the other tables as section 2 lists them. -/
def tabT1 : Tables where
  sbox := #v[0x6, 0xB, 0x0, 0x4, 0xD, 0x9, 0xF, 0x2, 0xA, 0x5, 0xE, 0x1, 0x7, 0xC, 0x3, 0x8]
  invSbox := #v[0x2, 0xB, 0x7, 0xE, 0x3, 0x9, 0x0, 0xC, 0xF, 0x5, 0x8, 0x1, 0xD, 0x4, 0xA, 0x6]
  perm := Vector.ofFn fun i => BitVec.ofNat 5 (13 * i.val + 7)
  invPerm := #v[29, 2, 7, 12, 17, 22, 27, 0, 5, 10, 15, 20, 25, 30, 3, 8, 13, 18, 23, 28, 1, 6, 11, 16, 21, 26, 31, 4, 9,
    14, 19, 24]

/-- TCFG-BAD: TCFG-T1 with `INV_PERM[i] = i`. -/
def tabBad : Tables := { tabT1 with invPerm := tabId.invPerm }

/-- The engine after reset with given tables, mode and depth. -/
def bench (t : Tables) (m : ArxMode) (d : Option Nat) : State := State.resetFor ⟨t, m, d⟩

/-- The engine after reset with good tables, its three self-check bits written out. -/
def good (t : Tables) (m : ArxMode) : State :=
  { bench t m (some 80) with tblErr := false, err := 0, fault := false }

/-- The same with the given round keys, all valid. -/
def keyed (t : Tables) (m : ArxMode) (rk : RoundKeys) : State :=
  { good t m with rk := rk, rkv := Vector.replicate 20 true }

/-- The state with a port sample on its inputs. -/
def drive (p : Ports) (s : State) : State := { s with ports := p }

/-- The next state of a command. -/
def after (i : Instr) (s : State) : State :=
  match exec i s with
  | .next t => t
  | _ => s

/-- The next state of a step. -/
def stepped (s : State) : State :=
  match step s with
  | .next t => t
  | _ => s

/-- `after` is what `exec` answers. -/
theorem exec_after (i : Instr) (s : State) : exec i s = .next (after i s) := by
  obtain ⟨t, h⟩ := exec_next i s
  simp only [after, h]

/-- `stepped` is what `step` answers. -/
theorem step_stepped (s : State) : step s = .next (stepped s) := by
  rcases step_cases s with ⟨-, h⟩ | ⟨-, -, h⟩ | ⟨-, -, -, u, -, h⟩ | ⟨-, -, -, h⟩ <;> simp only [stepped, h]

/-- The key and block of section 1, E4. -/
def keyK : Key := 0x0123456789ABCDEF0123456789ABCDEF
def blockP : Block := 0x65687420676E6148

/-- The round keys of `keyK` in TCFG-T1, section 4. -/
def keysT1 : RoundKeys := #v[
  0x51DE0246, 0x0FAEA3BC, 0x043C1F5D, 0x60340878, 0xE9E0C068, 0xDEF3D3C1, 0x51C5BDE7, 0xB444A38B, 0x3F036889, 0x33A27E06,
  0x2D1E6744, 0xFD085A3C, 0x1AC1FA10, 0x54D23583, 0xECBCA9A4, 0x4DA3D979, 0x21689B47, 0x007E42D1, 0x5F6600FC, 0x5A5ABECC]

/-- A stack of `n` records of zero; 40 are what an ENC of the zero block under zero keys leaves in TCFG-ID. -/
def zeroStack (n : Nat) (s : State) : State := { s with hist := List.replicate n (recOf 0), sp := n }

/-- Zero round keys. -/
def keysZero : RoundKeys := Vector.replicate 20 0

/-! ## Well-formedness, with an ill-formed term for each check -/

theorem test_wf_rdrk : wellFormed (.rdrk 19) = true ∧ wellFormed (.rdrk 20) = false := by decide
theorem test_wf_wrrk : wellFormed (.wrrk 0) = true ∧ wellFormed (.wrrk 31) = false := by decide
theorem test_wf_illegal_op : wellFormed (.illegal 0xE0) = true ∧ wellFormed (.illegal 0x00) = false := by decide
theorem test_wf_illegal_idx : wellFormed (.illegal 0x94) = true ∧ wellFormed (.illegal 0x93) = false := by decide
theorem test_wf_illegal_n : wellFormed (.illegal 0x7F) = true ∧ wellFormed (.illegal 0x60) = false := by decide
theorem test_legal : legal .clrh = true ∧ legal (.illegal 0xE0) = false ∧ legal (.rdrk 20) = false := by decide

/-! ## Decoding: words written out bit by bit, opcode then index (rules R90 to R94) -/

theorem test_decode_nop : decode 0b000_00000 = .nop := by decide
theorem test_decode_keygen : decode 0b001_00000 = .keygen := by decide
theorem test_decode_enc : decode 0b010_00000 = .enc := by decide
theorem test_decode_dec : decode 0b011_00000 = .dec := by decide
theorem test_decode_rdrk : decode 0b100_10011 = .rdrk 19 ∧ decode 0b100_00001 = .rdrk 1 := by decide
theorem test_decode_wrrk : decode 0b101_10011 = .wrrk 19 ∧ decode 0b101_01000 = .wrrk 8 := by decide
theorem test_decode_clrh : decode 0b110_00000 = .clrh := by decide
theorem test_decode_illegal : decode 0b111_00000 = .illegal 0xE0 ∧ decode 0b100_10100 = .illegal 0x94 ∧
    decode 0b000_00001 = .illegal 0x01 := by decide
theorem test_verdicts : verdict 0xFF = .error .reservedOpcode ∧ verdict 0xC1 = .error .indexInFormatN ∧
    verdict 0xB4 = .error .noSuchRoundKey := ⟨rfl, rfl, rfl⟩
theorem test_rows_disjoint : opcodeMap.Pairwise fun a b => ∀ w : BitVec 8, ¬ (selects w a = true ∧ selects w b = true) := by
  decide +kernel
theorem test_table_word : decodeTableWord 8 0xA3 = some (.wrrk 3) ∧ decodeTableWord 8 256 = none := by decide
theorem test_issue : decode (issue (.wrrk 3) 0 7).cmd = .wrrk 3 ∧ (issue (.wrrk 3) 0 7).start = true := by decide
theorem test_ldrks : (issueLdrks keysT1).length = 20 ∧
    ((issueLdrks keysT1)[19]?).map (fun p => (p.cmd, p.din)) = some (0xB3, 0x5A5ABECC) := by decide

/-! ## The functions (sections 2 to 7) -/

theorem test_tables_ok : TablesOk tabId ∧ TablesOk tabT1 ∧ ¬ TablesOk tabBad := by decide +kernel
theorem test_subst : subWord32 tabT1 0x76543210 = 0x2F9D40B6 ∧ invSubWord32 tabT1 0x2F9D40B6 = 0x76543210 ∧
    subByte tabT1 0x9B = 0x51 := by decide +kernel
theorem test_perm : permBits tabT1 0x00000001 = 0x20000000 ∧ permBits tabT1 0x80000000 = 0x01000000 ∧
    invPermBits tabT1 0x00000001 = 0x00000080 := by decide +kernel
theorem test_ks_rotate : ksRotate 0x8000 = 1 ∧ ksRotate 0x4000 = 0x80000000000000000000000000000000 := by decide
theorem test_ks_step1 : ksStep tabT1 0x51DE02468ACF13579BDE02468ACF1357 1 =
    (0x0FAEA3BC048D159E26AF37BC048D119E, 0x0FAEA3BC) := by decide +kernel
theorem test_f1 : f1 0x7420 0x0246 = 0x6E08 ∧ f1 0x8000 0 = 0x0011 ∧ f1 0xFFFE 0 = f1 0x0001 0 ∧
    recOf 0x2C74 = ⟨0x2C74, 0x8E85, 0x58E8⟩ := by decide
theorem test_f2 : f2 tabT1 0x00000001 0 = 0xECCCDC4C ∧ f2 tabT1 0xFFFFFFFF 0 = 0x11111111 ∧
    f2Inv tabT1 0 0xFFFFFFFF = 0xDDDDDDDD := by decide +kernel
theorem test_lanes : lanesOf blockP = ⟨0x6568, 0x7420, 0x676E, 0x6148⟩ ∧ middleWord (lanesOf blockP) = 0x7420676E := by
  decide
theorem test_encLanes : encLanes tabT1 0x51DE0246 (lanesOf blockP) = ⟨0x313C, 0x6148, 0x6568, 0x4235⟩ := by decide +kernel
theorem test_decLanes : decLanes tabT1 0x5A5ABECC ⟨0xE030, 0xA0AA, 0x350A, 0xAE74⟩ = ⟨0x350A, 0x2C74, 0x0AC7, 0xA0AA⟩ := by
  decide +kernel
theorem test_trace_top : (encTrace tabT1 keysT1 blockP).drop 36 = [0x66DF, 0xD749, 0x2C74, 0x0AC7] := by decide +kernel

/-! ## The commands, one step each (section 9) -/

theorem test_reset_status : status (bench tabT1 .history (some 80)) = 0x00C0 ∧
    status (bench tabBad .history none) = 0x05D8 := by decide +kernel
theorem test_nop : status (after .nop (bench tabBad .history none)) = 0x05DA := by decide +kernel
theorem test_keygen : (after .keygen (drive (issue .keygen keyK 0) (good tabT1 .history))).rk = keysT1 ∧
    status (after .keygen (drive (issue .keygen keyK 0) (good tabT1 .history))) = 0x00E2 := by decide +kernel
theorem test_enc : (after .enc (drive (issue .enc 0 blockP) (keyed tabT1 .history keysT1))).dout = 0xE030A0AA350AAE74 := by
  decide +kernel
theorem test_enc_status : status (after .enc (drive (issue .enc 0 0) (keyed tabId .history keysZero))) = 0x00A6 := by
  decide +kernel
theorem test_dec_stateless :
    (after .dec (drive (issue .dec 0 0xE030A0AA350AAE74) (keyed tabT1 .stateless keysT1))).dout = blockP := by decide +kernel
theorem test_dec_empty : status (after .dec (drive (issue .dec 0 0xE030A0AA350AAE74) (keyed tabT1 .history keysT1))) =
    0x03EA := by decide +kernel
theorem test_rdrk : (after (.rdrk 1) (keyed tabT1 .history keysT1)).dout = 0x000000000FAEA3BC ∧
    status (after (.rdrk 1) (keyed tabT1 .history keysT1)) = 0x00E6 := by decide +kernel
theorem test_rdrk_nokey : status (after (.rdrk 3) (good tabT1 .history)) = 0x02CA := by decide +kernel
theorem test_wrrk : (after (.wrrk 19) (drive (issue (.wrrk 19) 0 0xDEADBEEFD6E98BBE) (good tabId .history))).rk[19] =
    0xD6E98BBE := by decide +kernel
theorem test_wrrk_status : status (after (.wrrk 0) (good tabId .history)) = 0x00C2 := by decide +kernel
theorem test_clrh : status (after .clrh (zeroStack 40 (keyed tabT1 .history keysT1))) = 0x00E2 ∧
    (after .clrh (zeroStack 40 (keyed tabT1 .history keysT1))).sp = 0 := by decide +kernel
theorem test_illegal : status (after (.illegal 0xE0) (keyed tabT1 .history keysT1)) = 0x01EA := by decide +kernel
theorem test_hovf : status (after .enc (zeroStack 80 (keyed tabT1 .history keysT1))) = 0x042A := by
  decide +kernel
theorem test_step_word : (stepped ((good tabT1 .history).withFetchWord 8 0xE0)).err = 1 := by decide +kernel

/-! ## Witnesses: the hypotheses of each statement met together -/

theorem test_hyps_DecodeOfEncode : wellFormed (.rdrk 19) = true ∧ wellFormed (.illegal 0xE0) = true := by decide
theorem test_hyps_DecodeVerdicts : illegalWord 0xB4 = true ∧ (good tabT1 .history).tblErr = false := by decide
theorem test_hyps_StepRunsDecodedCommand : ∃ s : State, s.ports.rst = false ∧ s.fsm = .idle ∧ s.ports.start = true :=
  ⟨drive (issue .nop 0 0) (good tabT1 .history), rfl, rfl, rfl⟩
theorem test_hyps_IdleStepWaits : ∃ s : State, s.ports.rst = false ∧ s.fsm = .idle ∧ s.ports.start = false :=
  ⟨good tabT1 .history, rfl, rfl, rfl⟩
theorem test_hyps_BusyIgnoresStart : ∃ (s : State) (p : Ports), s.ports.rst = false ∧ p.rst = false ∧ s.fsm ≠ .idle :=
  ⟨{ good tabT1 .history with fsm := .keygen }, issue .clrh 0 0, rfl, rfl, by decide⟩
theorem test_hyps_ResetEdgeState_good : ∃ s : State, s.ports.rst = true ∧ TablesOk s.params.tables :=
  ⟨drive issueReset (good tabT1 .history), rfl, test_tables_ok.2.1⟩
theorem test_hyps_ResetEdgeState_bad : ∃ s : State, s.ports.rst = true ∧ ¬ TablesOk s.params.tables :=
  ⟨drive issueReset (bench tabBad .history none), rfl, test_tables_ok.2.2⟩
theorem test_hyps_StatusAfterReset_good : ∃ p : Params, (∀ d, p.histDepth = some d → 40 ≤ d) ∧ TablesOk p.tables :=
  ⟨⟨tabT1, .history, some 40⟩, fun _ h => by cases h; decide, test_tables_ok.2.1⟩
theorem test_hyps_StatusAfterReset_bad : ∃ p : Params, (∀ d, p.histDepth = some d → 40 ≤ d) ∧ ¬ TablesOk p.tables :=
  ⟨⟨tabBad, .history, none⟩, fun _ h => (by cases h), test_tables_ok.2.2⟩
/-- For NopRuns and KeygenRuns, and with the states below for the other commands. -/
theorem test_hyps_commands : (good tabT1 .history).tblErr = false ∧ (good tabT1 .stateless).tblErr = false := by decide
theorem test_hyps_EncRuns : ∃ s : State, s.tblErr = false ∧ keyOk s = true ∧ hRoom s = true ∧ s.params.arxMode = .history :=
  ⟨zeroStack 40 (keyed tabT1 .history keysT1), by decide, by decide +kernel, by decide, rfl⟩
theorem test_hyps_EncRuns_stateless : ∃ s : State, s.tblErr = false ∧ keyOk s = true ∧ hRoom s = true ∧
    s.params.arxMode = .stateless := ⟨keyed tabT1 .stateless keysT1, by decide, by decide +kernel, by decide, rfl⟩
theorem test_hyps_DecRuns : ∃ s : State, s.tblErr = false ∧ keyOk s = true ∧ s.hist.length = s.sp ∧
    s.params.arxMode = .history ∧ decPops s.params.tables s.rk s.ports.din <+: s.hist.reverse.map (·.x) :=
  ⟨zeroStack 40 (keyed tabId .history keysZero), by decide, by decide +kernel, by decide, rfl, by decide +kernel⟩
theorem test_hyps_DecRuns_stateless : ∃ s : State, s.tblErr = false ∧ keyOk s = true ∧ s.hist.length = s.sp ∧
    s.params.arxMode = .stateless := ⟨keyed tabT1 .stateless keysT1, by decide, by decide +kernel, by decide, rfl⟩
theorem test_hyps_RdrkRuns : ∃ (s : State) (idx : BitVec 5) (_ : idx.toNat < 20), s.tblErr = false ∧ s.rkv[idx.toNat] = true :=
  ⟨keyed tabT1 .history keysT1, 19, by decide, by decide, by decide +kernel⟩
theorem test_hyps_WrrkRuns : ∃ (s : State) (idx : BitVec 5), idx.toNat < 20 ∧ s.tblErr = false :=
  ⟨good tabT1 .history, 0, by decide, by decide⟩
theorem test_hyps_ClrhRuns : ∃ s : State, s.tblErr = false ∧ (∀ d, s.params.histDepth = some d → 40 ≤ d) ∧ s.sp = 40 :=
  ⟨zeroStack 40 (good tabT1 .history), by decide, fun _ h => by cases h; decide, rfl⟩
theorem test_hyps_IllegalRuns : ∃ s : State, legal (.rdrk 20) = false ∧ legal (.illegal 0x41) = false ∧ s.tblErr = false :=
  ⟨good tabT1 .history, by decide, by decide, by decide⟩
theorem test_hyps_TableErrorStopsEveryCommand : (bench tabBad .history none).tblErr = true := by decide +kernel
theorem test_hyps_MissingKeysGiveNokey : ∃ s : State, s.tblErr = false ∧ keyOk s = false ∧ s.rkv[19] = false :=
  ⟨good tabT1 .history, by decide, by decide +kernel, by decide +kernel⟩
theorem test_hyps_HistoryLimits_room : ∃ (s : State) (d : Nat), s.tblErr = false ∧ keyOk s = true ∧
    s.params.arxMode = .history ∧ s.params.histDepth = some d ∧ d < s.sp + 40 :=
  ⟨zeroStack 41 (keyed tabT1 .history keysT1), 80, by decide, by decide +kernel, rfl, rfl, by decide⟩
theorem test_hyps_HistoryLimits_under : ∃ s : State, s.tblErr = false ∧ keyOk s = true ∧ s.params.arxMode = .history ∧
    s.sp < 40 := ⟨zeroStack 39 (keyed tabT1 .history keysT1), by decide, by decide +kernel, rfl, by decide⟩
theorem test_hyps_ErrorPriority_table : ∃ (i : Instr) (s t : State), exec i s = .next t ∧ s.tblErr = true :=
  ⟨.illegal 0xE0, bench tabBad .history none, _, exec_after _ _, test_hyps_TableErrorStopsEveryCommand⟩
theorem test_hyps_ErrorPriority_illegal : ∃ (i : Instr) (s t : State), exec i s = .next t ∧ s.tblErr = false ∧
    legal i = false := ⟨.illegal 0x41, good tabT1 .history, _, exec_after _ _, by decide, by decide⟩
theorem test_hyps_ErrorPriority_keys : ∃ (i : Instr) (s t : State), exec i s = .next t ∧ s.tblErr = false ∧
    legal i = true ∧ keysWritten i s = false :=
  ⟨.enc, good tabT1 .history, _, exec_after _ _, by decide, by decide, by decide +kernel⟩
theorem test_hyps_ErrorPriority_room : ∃ (i : Instr) (s t : State), exec i s = .next t ∧ s.tblErr = false ∧
    legal i = true ∧ keysWritten i s = true ∧ i = .enc ∧ hRoom s = false :=
  ⟨.enc, zeroStack 80 (keyed tabT1 .history keysT1), _, exec_after _ _, by decide, by decide, by decide +kernel, rfl,
    by decide⟩
theorem test_hyps_ErrorPriority_rest : ∃ (i : Instr) (s t : State), exec i s = .next t ∧ s.tblErr = false ∧
    legal i = true ∧ keysWritten i s = true ∧ (i = .enc → hRoom s = true) :=
  ⟨.dec, keyed tabT1 .history keysT1, _, exec_after _ _, by decide, by decide, by decide +kernel, by decide⟩
theorem test_hyps_ErrorsArePrecise : ∃ (i : Instr) (s t : State), exec i s = .next t ∧ t.err ≠ 0 :=
  ⟨.rdrk 3, good tabT1 .history, _, exec_after _ _, by decide +kernel⟩
theorem test_hyps_ResultValidity : ∃ (i : Instr) (s t : State), exec i s = .next t ∧ t.doutValid = true :=
  ⟨.rdrk 0, keyed tabT1 .history keysT1, _, exec_after _ _, by decide +kernel⟩
theorem test_hyps_FaultIsSticky : ∃ s t : State, step s = .next t ∧ s.fault = true ∧ s.ports.rst = false :=
  ⟨drive (issue .nop 0 0) { good tabT1 .history with fault := true }, _, step_stepped _, rfl, rfl⟩
theorem test_hyps_FaultIsSticky_reset : ∃ s t : State, step s = .next t ∧ s.ports.rst = true :=
  ⟨drive issueReset (good tabT1 .history), _, step_stepped _, rfl⟩
theorem test_hyps_KeyFileFrame : ∃ (i : Instr) (s t : State), exec i s = .next t ∧ i ≠ .keygen ∧ ∀ idx, i ≠ .wrrk idx :=
  ⟨.enc, keyed tabT1 .history keysT1, _, exec_after _ _, by decide, by decide⟩
theorem test_hyps_KeyFileFrame_step : ∃ s t : State, step s = .next t ∧ s.ports.rst = false ∧ s.rkv[19] = true :=
  ⟨drive (issue (.wrrk 3) 0 0) (keyed tabT1 .history keysT1), _, step_stepped _, rfl, by decide +kernel⟩
theorem test_hyps_HistoryFrame : ∃ (i : Instr) (s t : State), exec i s = .next t ∧ i ≠ .enc ∧ i ≠ .dec ∧ i ≠ .clrh :=
  ⟨.keygen, zeroStack 40 (good tabT1 .history), _, exec_after _ _, by decide, by decide, by decide⟩
theorem test_hyps_ParametersConstant : ∃ s t : State, step s = .next t :=
  ⟨drive issueReset (good tabT1 .history), _, step_stepped _⟩
theorem test_hyps_UnusedOperandsIgnored_key : Instr.enc ≠ .keygen := by decide
theorem test_hyps_UnusedOperandsIgnored_din : ∃ (s : State) (d : BitVec 64), Instr.wrrk 3 ≠ .enc ∧ Instr.wrrk 3 ≠ .dec ∧
    d ≠ s.ports.din ∧ d.extractLsb' 0 32 = s.ports.din.extractLsb' 0 32 :=
  ⟨drive (issue (.wrrk 3) 0 0xD6E98BBE) (good tabT1 .history), 0xDEADBEEFD6E98BBE, by decide, by decide, by decide, by decide⟩
theorem test_hyps_PopAfterPush : ∃ s : State, s.params.arxMode = .history ∧ s.hist.length = s.sp :=
  ⟨zeroStack 40 (good tabT1 .history), rfl, by decide⟩
theorem test_hyps_ArxInverseChecks_empty : ∃ s : State, s.params.arxMode = .history ∧ s.sp = 0 :=
  ⟨good tabT1 .history, rfl, rfl⟩
theorem test_hyps_ArxInverseChecks_wrong : ∃ (s : State) (x v : Lane), s.params.arxMode = .history ∧ 0 < s.sp ∧
    s.hist[s.sp - 1]? = some (recOf x) ∧ x ≠ v :=
  ⟨zeroStack 1 (good tabT1 .history), 0, 1, rfl, by decide, rfl, by decide⟩

/-- In the middle of a DEC: 40 records stored, one still on the stack. -/
theorem test_hyps_ArxInverseChecks_match : ∃ (s : State) (x v : Lane), s.params.arxMode = .history ∧ 0 < s.sp ∧
    s.hist[s.sp - 1]? = some (recOf x) ∧ x = v ∧ s.sp < s.hist.length :=
  ⟨{ zeroStack 40 (good tabT1 .history) with sp := 1 }, 0, 0, rfl, by decide, by decide, rfl, by decide⟩

/-- For LayerBits (both ranges) and KeyScheduleStep (bit positions): the ends of each range. -/
theorem test_hyps_layers : (0 < 8 ∧ 7 < 8) ∧ (0 < 32 ∧ 31 < 32) ∧ (0 < 128 ∧ 127 < 128) := by decide
/-- For PermutationKeepsWeight, LayersInverse, SpnRoundTrip and BlockFunctionsInverse. -/
theorem test_hyps_tables : TablesOk tabT1 := test_tables_ok.2.1
theorem test_hyps_OneSidedTablesSuffice : (∀ n : Nibble, invSboxAt tabT1 (sboxAt tabT1 n) = n) ∧
    (∀ i : BitPos, invPermAt tabT1 (permAt tabT1 i) = i) := ⟨test_tables_ok.2.1.1, test_tables_ok.2.1.2.2.1⟩
theorem test_hyps_KeyScheduleStepBijective : Function.Bijective (sboxAt tabT1) :=
  ⟨Function.LeftInverse.injective test_tables_ok.2.1.1, Function.RightInverse.surjective test_tables_ok.2.1.2.1⟩
theorem test_hyps_KeygenDeterminism_tables : tabT1.sbox = tabBad.sbox ∧ tabT1 ≠ tabBad := by decide +kernel
theorem test_hyps_KeygenDeterminism_runs : ∃ s u s' u' : State, exec .keygen s = .next s' ∧ exec .keygen u = .next u' ∧
    s.tblErr = false ∧ u.tblErr = false ∧ s.params.tables = u.params.tables ∧ s.ports.keyIn = u.ports.keyIn ∧ s ≠ u :=
  ⟨good tabT1 .history, keyed tabT1 .stateless keysT1, _, _, exec_after _ _, exec_after _ _, rfl, rfl, rfl, rfl,
    by decide +kernel⟩

/-- The F2 chain of one word of the block (rule R210). -/
def chain (t : Tables) (rk : RoundKeys) (odd : Nat) (w : Word32) : Nat → Word32
  | 0 => w
  | j + 1 => f2 t (chain t rk odd w j) (keyAt rk (2 * j + odd))

theorem test_hyps_TwoWordsNeverMix : ∃ a o : Nat → Word32, a 0 = blockP.extractLsb' 16 32 ∧
    o 0 = blockP.extractLsb' 0 16 ++ blockP.extractLsb' 48 16 ∧
    (∀ j < 10, a (j + 1) = f2 tabT1 (a j) (keyAt keysT1 (2 * j))) ∧
    (∀ j < 10, o (j + 1) = f2 tabT1 (o j) (keyAt keysT1 (2 * j + 1))) :=
  ⟨chain tabT1 keysT1 0 (blockP.extractLsb' 16 32), chain tabT1 keysT1 1 (blockP.extractLsb' 0 16 ++ blockP.extractLsb' 48 16),
    rfl, rfl, fun _ _ => rfl, fun _ _ => rfl⟩

theorem test_hyps_TraceIdentifiesBlock : ∃ b b' : Block, encTrace tabT1 keysT1 b = encTrace tabT1 keysT1 b' := ⟨0, 0, rfl⟩
theorem test_hyps_NoValueIsRead : ∃ (s t : State) (rk : RoundKeys), exec (.rdrk 3) s = .next t ∧ rk ≠ s.rk ∧
    ∀ n : Fin 20, s.rkv[n] = true → rk[n] = s.rk[n] :=
  ⟨good tabT1 .history, _, keysT1, exec_after _ _, by decide +kernel, by decide +kernel⟩

theorem test_hyps_NoValueIsRead_hist : ∃ (s t : State) (h : List HistRec), exec .clrh s = .next t ∧ h ≠ s.hist ∧
    h.take s.sp = s.hist.take s.sp :=
  ⟨zeroStack 40 (good tabT1 .history), _, List.replicate 41 (recOf 0), exec_after _ _, by decide, by decide⟩
theorem test_hyps_KeyScheduleStep : ∃ st : Nat → Key, st 0 = keyK ∧ ∀ i < 20, st (i + 1) = (ksStep tabT1 (st i) i).1 :=
  ⟨ksState tabT1 keyK, rfl, fun _ _ => rfl⟩

/-- The zero block under zero keys in TCFG-ID, to be encrypted: the ciphertext is zero. -/
def zeroEnc : State := keyed tabId .history keysZero

/-- After that ENC, its ciphertext on `din`; and another block on `din`. -/
def zeroDec (c : Block) : State := drive (issue .dec 0 c) (after .enc zeroEnc)

theorem test_hyps_EncThenDecRoundTrip : ∃ s t u : State, TablesOk s.params.tables ∧ s.hist.length = s.sp ∧
    exec .enc s = .next t ∧ t.err = 0 ∧ SameKeys t u ∧ SameHistory t u ∧ u.params = t.params ∧ u.tblErr = false ∧
    u.ports.din = t.dout :=
  ⟨zeroEnc, _, zeroDec 0, test_tables_ok.1, rfl, exec_after _ _, by decide +kernel, ⟨rfl, rfl⟩, ⟨rfl, rfl⟩, rfl,
    by decide +kernel, by decide +kernel⟩
theorem test_hyps_DecSucceedsExactly : ∃ s t : State, TablesOk s.params.tables ∧ s.params.arxMode = .history ∧
    s.hist.length = s.sp ∧ s.tblErr = false ∧ keyOk s = true ∧ exec .dec s = .next t ∧ t.err = 0 :=
  ⟨zeroStack 40 zeroEnc, _, test_tables_ok.1, rfl, by decide, by decide, by decide +kernel, exec_after _ _,
    by decide +kernel⟩
theorem test_hyps_DecSucceedsExactly_not : ∃ s t : State, TablesOk s.params.tables ∧ s.params.arxMode = .history ∧
    s.hist.length = s.sp ∧ s.tblErr = false ∧ keyOk s = true ∧ exec .dec s = .next t ∧ t.err ≠ 0 :=
  ⟨zeroEnc, _, test_tables_ok.1, rfl, by decide, by decide, by decide +kernel, exec_after _ _, by decide +kernel⟩
theorem test_hyps_DecUndoesOnlyTheLastEnc : ∃ s t u : State, TablesOk s.params.tables ∧ s.params.arxMode = .history ∧
    s.hist.length = s.sp ∧ exec .enc s = .next t ∧ t.err = 0 ∧ SameKeys t u ∧ SameHistory t u ∧ u.params = t.params ∧
    u.tblErr = false ∧ u.ports.din ≠ t.dout :=
  ⟨zeroEnc, _, zeroDec 1, test_tables_ok.1, rfl, rfl, exec_after _ _, by decide +kernel, ⟨rfl, rfl⟩, ⟨rfl, rfl⟩, rfl,
    by decide +kernel, by decide +kernel⟩
theorem test_hyps_ResultIndependentOfHistory : ∃ s u s' u' : State, exec .enc s = .next s' ∧ exec .enc u = .next u' ∧
    s'.err = 0 ∧ u'.err = 0 ∧ s.rk = u.rk ∧ s.params.tables = u.params.tables ∧ s.ports.din = u.ports.din ∧ s.sp ≠ u.sp :=
  ⟨zeroEnc, zeroStack 40 zeroEnc, _, _, exec_after _ _, exec_after _ _, by decide +kernel, by decide +kernel, rfl, rfl, rfl,
    by decide⟩
/-- For EncRoundsAgree, DecRoundsAgree and KeygenRoundsAgree. -/
theorem test_hyps_rounds : check .enc zeroEnc = none ∧ check .dec zeroEnc = none ∧ check .keygen zeroEnc = none := by
  decide +kernel
theorem test_hyps_ShortCommandsAgree : check .enc (good tabT1 .history) ≠ none ∧
    (Instr.nop ≠ .keygen ∧ Instr.nop ≠ .enc ∧ Instr.nop ≠ .dec) := by decide +kernel
theorem test_hyps_ResetMeetsInvariant : ∀ d, (⟨tabT1, .history, some 40⟩ : Params).histDepth = some d → 40 ≤ d :=
  fun _ h => by cases h; decide

/-- The engine after reset in TCFG-ID meets the invariant. -/
theorem test_inv_idle : Inv (good tabId .history) where
  status := by constructor <;> decide +kernel
  store := ⟨by decide, fun _ h => by cases h; decide, fun _ _ h => by cases h; decide, by decide⟩
  seq := ⟨rfl, rfl⟩

/-- So does an engine in the middle of KEYGEN, which no transaction-level run reaches. -/
theorem test_inv_busy : Inv { good tabId .history with fsm := .keygen, rnd := 19 } where
  status := by constructor <;> decide +kernel
  store := ⟨by decide, fun _ h => by cases h; decide, fun _ _ h => by cases h; decide, by decide⟩
  seq := ⟨rfl, rfl, rfl, by decide⟩

/-- For StepKeepsInvariant, and with `test_inv_idle` and `test_inv_busy` for EdgeKeepsInvariant. -/
theorem test_hyps_StepKeepsInvariant : ∃ s t : State, Inv s ∧ step s = .next t ∧ s.fsm = .idle :=
  ⟨_, _, test_inv_idle, step_stepped _, rfl⟩
theorem test_hyps_StepKeepsInvariant_busy : ∃ s t : State, Inv s ∧ step s = .next t ∧ s.fsm = .keygen :=
  ⟨_, _, test_inv_busy, step_stepped _, rfl⟩
theorem test_hyps_IdleBetweenCommands : (good tabId .history).fsm = .idle := rfl
theorem test_hyps_RunningCommandEnds : ∃ s : State, Inv s ∧ s.fsm ≠ .idle := ⟨_, test_inv_busy, by decide⟩

end Sys2Proof.Tests
end

section
/-! SUPPORT. The reset state and the transaction level: the status flags after reset (rules R38, R40), the invariant there,
and that a step of an idle engine ends idle (rule R30). -/

namespace Sys2Proof.Machine

/-- `HIST_DEPTH` of `Config` is at least 40 or infinite (rules R7, R164). -/
theorem forty_le_config_histDepth : ∀ d, Config.params.histDepth = some d → 40 ≤ d := by
  intro d h
  obtain ⟨k, -, rfl⟩ := Option.map_eq_some_iff.1 h
  exact Nat.le_add_right 40 k

/-- The parameters of `Config` are as rule R7 requires. -/
theorem paramsOk_config : ParamsOk Config.params := ⟨tablesOk_config, forty_le_config_histDepth⟩

/-- When the self-check passes (rules R124, R125). -/
theorem selfCheckFails_eq_false {t : Tables} : selfCheckFails t = false ↔ TablesOk t := by simp [selfCheckFails]

/-- After reset an ENC has room for its 40 records (rules R38, R164). -/
theorem hRoom_resetFor {p : Params} (hd : ∀ d, p.histDepth = some d → 40 ≤ d) : hRoom (State.resetFor p) = true := by
  unfold hRoom State.resetFor
  cases p.arxMode with
  | stateless => rfl
  | history =>
    cases h : p.histDepth with
    | none => rfl
    | some d => simpa using hd d h

/-- After reset the stack is empty (rules R38, R40). -/
theorem hEmpty_resetFor (p : Params) : hEmpty (State.resetFor p) = true := by
  unfold hEmpty spRead State.resetFor
  cases p.arxMode <;> rfl

/-- The status word after reset is a function of the self-check alone (rules R38, R40, R302). -/
theorem status_resetFor {p : Params} (hd : ∀ d, p.histDepth = some d → 40 ≤ d) :
    status (State.resetFor p) = if selfCheckFails p.tables then 0x05D8 else 0x00C0 := by
  have hk : keyOk (State.resetFor p) = false := by simp [keyOk, State.resetFor]
  have hb : busy (State.resetFor p) = false := rfl
  rw [status, hRoom_resetFor hd, hEmpty_resetFor, hk, hb]
  simp only [State.resetFor]
  cases selfCheckFails p.tables <;> rfl

/-- Settles O10, from the status word as a function of the self-check. -/
theorem statusAfterReset : Obligations.StatusAfterReset := by
  refine ⟨paramsOk_config, ?_, fun p hd => ⟨fun ht => ?_, fun ht => ?_⟩⟩
  · have hs : selfCheckFails Config.params.tables = false := selfCheckFails_config
    simp [State.reset, status_resetFor forty_le_config_histDepth, hs]
  · simp [status_resetFor hd, selfCheckFails_eq_false.2 ht]
  · have hs : selfCheckFails p.tables = true := Bool.eq_true_of_not_eq_false (mt selfCheckFails_eq_false.1 ht)
    simp [status_resetFor hd, hs]

/-- The status registers after reset agree, whatever the self-check says. -/
theorem statusInv_resetFor (p : Params) : StatusInv (State.resetFor p) where
  tblErr_check := rfl
  tblErr_fault h := h
  tblErr_err h _ := if_pos h
  err_le := by
    show (if selfCheckFails p.tables then errBits .table else 0).toNat ≤ 5
    cases selfCheckFails p.tables <;> decide
  err_fault h := by
    by_contra hf
    exact h (if_neg hf)
  valid_done h := nomatch h
  busy_clear h := absurd rfl h

/-- The history after reset is empty, so it fits every depth that rule R7 allows. -/
theorem storeInv_resetFor {p : Params} (hd : ∀ d, p.histDepth = some d → 40 ≤ d) : StoreInv (State.resetFor p) where
  records _ h := nomatch h
  depth := hd
  room _ _ _ := Nat.zero_le _
  stateless _ := ⟨rfl, rfl⟩

/-- The invariant holds after reset for every parameter set of rule R7, with good tables and with bad ones. -/
theorem inv_resetFor {p : Params} (hd : ∀ d, p.histDepth = some d → 40 ≤ d) : Inv (State.resetFor p) where
  status := statusInv_resetFor p
  store := storeInv_resetFor hd
  seq := ⟨rfl, rfl⟩

/-- Settles O56: `State.reset` is the reset state for the parameters of `Config`, whose depth rule R7 allows. -/
theorem resetMeetsInvariant : Obligations.ResetMeetsInvariant :=
  ⟨inv_resetFor forty_le_config_histDepth, fun _ hd => inv_resetFor hd⟩

/-- A command ends with `FSM` in `IDLE` (rule R230). -/
theorem exec_fsm_idle {i : Instr} {s t : State} (h : exec i s = .next t) : t.fsm = .idle := by
  rcases exec_frame i s with ⟨e, he⟩ | ⟨u, hu, -⟩
  · cases he.symm.trans h; rfl
  · cases hu.symm.trans h; rfl

/-- Settles O59, by the cases of a step of an idle engine: a reset, a whole command, or nothing to do. -/
theorem idleBetweenCommands : Obligations.IdleBetweenCommands := by
  intro s hs
  rcases step_cases s with ⟨-, h⟩ | ⟨-, hb, -⟩ | ⟨-, -, -, t, ht, h⟩ | ⟨-, -, -, h⟩
  · exact ⟨_, h, by simp [State.resetFor]⟩
  · exact absurd hs hb
  · exact ⟨_, h, by simpa using exec_fsm_idle ht⟩
  · exact ⟨_, h, by simpa using hs⟩

end Sys2Proof.Machine
end

section
/-! SUPPORT. The sequencer fields `FSM`, `RND`, `SPSAVE` and `MISM` stand beside the data: the rounds of the transaction
level neither read nor write them, and completion and `raise` overwrite them (rules R30, R42, R211). So an iteration of ENC
or DEC is such a round with the sequencer moved on. -/

namespace Sys2Proof.Machine

/-- The sequencer fields with the given values (rules R30, R42). -/
def withSequencer (f : Fsm) (r : BitVec 5) (p : Nat) (m : Bool) (s : State) : State :=
  { s with fsm := f, rnd := r, spSave := p, mism := m }

variable (f : Fsm) (r : BitVec 5) (p : Nat) (m : Bool) (s : State)

/-- Dropping the popped records does not read the sequencer fields. -/
theorem dropPopped_withSequencer :
    dropPopped (withSequencer f r p m s) = withSequencer f r p m (dropPopped s) := by
  unfold dropPopped withSequencer
  dsimp only
  split <;> rfl

/-- An encrypt round does not read the sequencer fields. -/
theorem encRound_withSequencer (i : Nat) :
    encRound i (withSequencer f r p m s) = withSequencer f r p m (encRound i s) := by
  cases hm : s.params.arxMode with
  | history => rw [encRound_history i hm, encRound_history i (by exact hm)]; rfl
  | stateless => rw [encRound_stateless i hm, encRound_stateless i (by exact hm)]; rfl

/-- A pop does not read the sequencer fields. -/
theorem histPop_withSequencer : histPop (withSequencer f r p m s) =
    (histPop s).map fun (e, t) => (e, withSequencer f r p m t) := by
  unfold histPop withSequencer
  dsimp only
  split
  · rfl
  · cases s.hist[s.sp - 1]? <;> rfl

/-- `F1Inv` does not read the sequencer fields. -/
theorem f1Inv_withSequencer (v k : Lane) : f1Inv v k (withSequencer f r p m s) =
    (f1Inv v k s).map fun (x, t) => (x, withSequencer f r p m t) := by
  have hp : (withSequencer f r p m s).params = s.params := rfl
  unfold f1Inv
  rw [histPop_withSequencer, hp]
  cases s.params.arxMode with
  | stateless => rfl
  | history =>
    cases histPop s with
    | none => rfl
    | some q =>
      by_cases hx : q.1.x = v <;> simp [hx, Except.map]

/-- A decrypt round does not read the sequencer fields. -/
theorem decRound_withSequencer (i : Nat) :
    decRound i (withSequencer f r p m s) = (decRound i s).map (withSequencer f r p m) := by
  have hp : (withSequencer f r p m s).params = s.params := rfl
  have hl : (withSequencer f r p m s).lanes = s.lanes := rfl
  have hk : ∀ j, rkRead (withSequencer f r p m s) j = rkRead s j := fun _ => rfl
  unfold decRound
  simp only [hp, hl, hk, f1Inv_withSequencer]
  cases f1Inv (low16 (decTemp s.params.tables (rkRead s (roundIndex i)) s.lanes)) (high16 (rkRead s (roundIndex i))) s with
  | error e => rfl
  | ok q =>
    simp only [Except.map, f1Inv_withSequencer]
    cases f1Inv (high16 (decTemp s.params.tables (rkRead s (roundIndex i)) s.lanes)) (low16 (rkRead s (roundIndex i))) q.2 <;>
      rfl

/-- The decrypt rounds do not read the sequencer fields. -/
theorem decLoop_withSequencer (n : Nat) :
    decLoop n (withSequencer f r p m s) = (decLoop n s).map (withSequencer f r p m) := by
  induction n generalizing s with
  | zero => rfl
  | succ n ih =>
    rw [decLoop, decLoop, decRound_withSequencer]
    cases decRound n s with
    | error e => rfl
    | ok t => exact ih t

end Sys2Proof.Machine
end

section
/-! SUPPORT. The round-level view gives what the transaction level gives (rule R6): what each iteration does, what `n` of
them do, and the obligations that compare the two levels. -/

namespace Sys2Proof.Machine

/-- One more iteration, taken last. -/
theorem tickTimes_succ (n : Nat) (s : State) : tickTimes (n + 1) s = tick (tickTimes n s) := by
  induction n generalizing s with
  | zero => rfl
  | succ n ih => exact ih (tick s)

/-- States of which each is one iteration after the one before it. -/
theorem tickTimes_of_chain {a : Nat → State} {n : Nat} (h : ∀ i < n, tick (a i) = a (i + 1)) :
    tickTimes n (a 0) = a n := by
  induction n with
  | zero => rfl
  | succ n ih => rw [tickTimes_succ, ih fun i hi => h i (by omega), h n (by omega)]

/-- A round number fits in `RND`. -/
theorem toNat_ofNat_rnd {n : Nat} (hn : n < 20) : (BitVec.ofNat 5 n).toNat = n := by
  rw [BitVec.toNat_ofNat]
  omega

/-- Rounds 0 to 18 are not the last of an upward loop. -/
theorem ofNat_rnd_ne_nineteen {n : Nat} (hn : n < 19) : BitVec.ofNat 5 n ≠ 19 := fun h => by
  have := congrArg BitVec.toNat h
  rw [toNat_ofNat_rnd (by omega)] at this
  exact absurd this (Nat.ne_of_lt hn)

/-- The next round number. -/
theorem ofNat_rnd_succ (n : Nat) : BitVec.ofNat 5 (n + 1) = BitVec.ofNat 5 n + 1 := BitVec.ofNat_add n 1

/-! ### The one-step commands, and the commands refused at acceptance -/

/-- A command refused at acceptance is in `SHORT` with its error, and the next iteration raises it. -/
theorem tick_acceptCommand_checkError {i : Instr} {s : State} {e : ErrCode} (hc : check i s = some e) :
    tick (acceptCommand i s) = raise e s := by
  rw [acceptCommand, hc]
  rfl

/-- The iteration of an accepted one-step command finishes it from its body. -/
theorem tick_acceptCommand_short {i : Instr} {s : State} (hc : check i s = none)
    (hi : i ≠ .keygen ∧ i ≠ .enc ∧ i ≠ .dec) :
    tick (acceptCommand i s) = finishShort s (bodyOf i s (beginCommand s)) := by
  obtain ⟨hk, he, hd⟩ := hi
  rw [acceptCommand, hc]
  cases i with
  | nop => rfl
  | keygen => exact absurd rfl hk
  | enc => exact absurd rfl he
  | dec => exact absurd rfl hd
  | rdrk idx =>
    simp only [startCommand, tick, enterShort, tickShort, bodyOf, bodyRdrk]
    cases rkIndex idx <;> rfl
  | wrrk idx =>
    simp only [startCommand, tick, enterShort, tickShort, bodyOf, bodyWrrk]
    cases rkIndex idx <;> rfl
  | clrh =>
    simp only [startCommand, tick, enterShort, tickShort, bodyOf, bodyClrh, beginCommand]
    cases s.params.arxMode <;> rfl
  | illegal w => rfl

/-- Settles O54: an error of the check is raised in `SHORT`, and a one-step command finishes there from its body. -/
theorem shortCommandsAgree : Obligations.ShortCommandsAgree := by
  intro i s h
  cases hc : check i s with
  | some e => rw [exec_checkError hc, tick_acceptCommand_checkError hc]
  | none =>
    rw [tick_acceptCommand_short hc (h.resolve_left (not_not_intro hc))]
    cases hb : bodyOf i s (beginCommand s) with
    | ok t => exact exec_ok hc hb
    | error e => exact exec_bodyError hc hb

/-! ### KEYGEN -/

/-- A vector of 20 entries of which those below `n` are written with the values of `f`. -/
def writtenBelow {α : Type} (n : Nat) (f : Nat → α) (v : Vector α 20) : Vector α 20 :=
  Vector.ofFn fun i => if i.val < n then f i.val else v[i]

theorem writtenBelow_zero {α : Type} (f : Nat → α) (v : Vector α 20) : writtenBelow 0 f v = v := by
  ext i hi
  simp [writtenBelow]

/-- Writing the entry of round `n` as well (rule R62). -/
theorem writtenBelow_set {α : Type} {n : Nat} (hn : n < 20) (f : Nat → α) (v : Vector α 20) :
    (writtenBelow n f v).set (roundIndex n) (f n) = writtenBelow (n + 1) f v := by
  ext i hi
  have hr : (roundIndex n).val = n := Nat.mod_eq_of_lt hn
  simp only [writtenBelow, Vector.getElem_set, Vector.getElem_ofFn, hr]
  rcases Nat.lt_trichotomy i n with h | rfl | h
  · rw [if_neg (by omega), if_pos h, if_pos (by omega)]
  · rw [if_pos rfl, if_pos (by omega)]
  · rw [if_neg (by omega), if_neg (by omega), if_neg (by omega)]

/-- The 20 iterations write the whole key schedule (rule R146). -/
theorem writtenBelow_roundKey (t : Tables) (key : Key) (rk : RoundKeys) :
    writtenBelow 20 (roundKey t key) rk = keySchedule t key := by
  ext i hi
  simp [writtenBelow, keySchedule]

/-- The data after the first `n` iterations of a KEYGEN that started in `s` (rules R145, R212). -/
def keygenAfter (n : Nat) (s : State) : State :=
  { s with
    ks := ksState s.params.tables s.ks n
    rk := writtenBelow n (roundKey s.params.tables s.ks) s.rk
    rkv := writtenBelow n (fun _ => true) s.rkv }

theorem keygenAfter_zero (s : State) : keygenAfter 0 s = s := by
  simp only [keygenAfter, writtenBelow_zero, ksState]

/-- What iteration `n` of KEYGEN does to the data (rules R145, R212). -/
theorem keygenAfter_succ {n : Nat} (hn : n < 20) (s : State) :
    rkWrite (roundIndex n) (ksStep s.params.tables (keygenAfter n s).ks n).2
      { keygenAfter n s with ks := (ksStep s.params.tables (keygenAfter n s).ks n).1 } = keygenAfter (n + 1) s := by
  have hrk := writtenBelow_set hn (roundKey s.params.tables s.ks) s.rk
  have hrkv := writtenBelow_set hn (fun _ => true) s.rkv
  simp only [keygenAfter, ← hrk, ← hrkv]
  rfl

/-- An iteration of KEYGEN that is not the last (rule R212). -/
theorem tick_keygen {n : Nat} (hn : n < 19) (p : Nat) (m : Bool) (s : State) :
    tick (withSequencer .keygen (BitVec.ofNat 5 n) p m (keygenAfter n s)) =
      withSequencer .keygen (BitVec.ofNat 5 (n + 1)) p m (keygenAfter (n + 1) s) := by
  rw [← keygenAfter_succ (by omega), ofNat_rnd_succ]
  simp only [tick, withSequencer, tickKeygen, toNat_ofNat_rnd (show n < 20 by omega),
    if_neg (ofNat_rnd_ne_nineteen hn)]
  rfl

/-- The last iteration of KEYGEN (rule R212). -/
theorem tick_keygen_last (p : Nat) (m : Bool) (s : State) :
    tick (withSequencer .keygen 19 p m (keygenAfter 19 s)) =
      complete { keygenAfter 20 s with rkv := Vector.replicate 20 true } := by
  rw [← keygenAfter_succ (by omega : 19 < 20)]
  rfl

/-- The 20 iterations of KEYGEN (rules R146, R212). -/
theorem tickTimes_keygen (p : Nat) (m : Bool) (s : State) :
    tickTimes 20 (withSequencer .keygen 0 p m s) =
      complete { keygenAfter 20 s with rkv := Vector.replicate 20 true } := by
  have h := tickTimes_of_chain (a := fun n => withSequencer .keygen (BitVec.ofNat 5 n) p m (keygenAfter n s)) (n := 19)
    fun _ hn => tick_keygen hn p m s
  simp only [keygenAfter_zero] at h
  rw [tickTimes_succ, show (0 : BitVec 5) = BitVec.ofNat 5 0 from rfl, h]
  exact tick_keygen_last p m s

/-- Settles O51: the iterations write the key schedule entry by entry. -/
theorem keygenRoundsAgree : Obligations.KeygenRoundsAgree := by
  intro s hs
  have hc : check .keygen s = none := check_eq_none.2 ⟨hs, rfl, rfl, rfl⟩
  have ha : acceptCommand .keygen s =
      withSequencer .keygen 0 s.spSave s.mism { beginCommand s with ks := keyOperand s } := by
    rw [acceptCommand, hc]
    rfl
  rw [exec_ok hc rfl, ha, tickTimes_keygen, keygenAfter, writtenBelow_roundKey]
  rfl

/-! ### ENC -/

/-- An iteration of ENC that is not the last (rule R213). -/
theorem tick_enc {n : Nat} (hn : n < 19) (p : Nat) (m : Bool) (s : State) :
    tick (withSequencer .enc (BitVec.ofNat 5 n) p m s) =
      withSequencer .enc (BitVec.ofNat 5 (n + 1)) p m (encRound n s) := by
  show tickEnc _ = _
  have hr : (withSequencer .enc (BitVec.ofNat 5 n) p m s).rnd = BitVec.ofNat 5 n := rfl
  simp only [tickEnc, hr, if_neg (ofNat_rnd_ne_nineteen hn), toNat_ofNat_rnd (show n < 20 by omega),
    encRound_withSequencer, ofNat_rnd_succ]
  rfl

/-- The last iteration of ENC (rule R213). -/
theorem tick_enc_last (p : Nat) (m : Bool) (s : State) :
    tick (withSequencer .enc 19 p m s) =
      complete { encRound 19 s with dout := storeLanes (encRound 19 s), doutValid := true } := by
  show complete { encRound 19 _ with dout := storeLanes (encRound 19 _), doutValid := true } = _
  rw [encRound_withSequencer]
  rfl

/-- The 20 iterations of ENC (rules R202, R213). -/
theorem tickTimes_enc (p : Nat) (m : Bool) (s : State) :
    tickTimes 20 (withSequencer .enc 0 p m s) =
      complete { encLoop 20 s with dout := storeLanes (encLoop 20 s), doutValid := true } := by
  have h := tickTimes_of_chain (a := fun n => withSequencer .enc (BitVec.ofNat 5 n) p m (encLoop n s)) (n := 19)
    fun n hn => tick_enc hn p m (encLoop n s)
  rw [tickTimes_succ]
  exact (congrArg tick h).trans (tick_enc_last p m (encLoop 19 s))

/-- Settles O52: iteration `n` is round `n` of the transaction. -/
theorem encRoundsAgree : Obligations.EncRoundsAgree := by
  intro s hc
  have ha : acceptCommand .enc s =
      withSequencer .enc 0 s.spSave s.mism (loadLanes (blockOperand s) (beginCommand s)) := by
    rw [acceptCommand, hc]
    rfl
  rw [exec_ok hc rfl, ha, tickTimes_enc]

/-! ### DEC -/

/-- The last iteration of DEC (rule R214). -/
theorem tick_dec_last {s : State} (hf : s.fsm = .dec) (hr : s.rnd = 0) :
    tick s = finishDec (decRoundQuiet 0 s) := by
  simp only [tick, hf, tickDec, hr, if_true]
  rfl

/-- An iteration of DEC that is not the last (rule R214). -/
theorem tick_dec {s : State} {n : Nat} (hn : n < 19) (hf : s.fsm = .dec) (hr : s.rnd = BitVec.ofNat 5 (n + 1)) :
    tick s = { decRoundQuiet (n + 1) s with rnd := BitVec.ofNat 5 n } := by
  have hi : s.rnd.toNat = n + 1 := by rw [hr, toNat_ofNat_rnd (by omega)]
  have hne : s.rnd ≠ 0 := fun h => by simp [h] at hi
  have hsub : s.rnd - 1 = BitVec.ofNat 5 n := by
    rw [hr, ofNat_rnd_succ, BitVec.add_sub_cancel]
  simp only [tick, hf, tickDec, if_neg hne, hi, hsub]

/-- Once a pop has failed, the iterations from round `n` down end with NOHIST, `SP` as `SPSAVE` has it (rule R214). -/
theorem tickTimes_dec_of_mism {s : State} {n : Nat} (hn : n < 20) (hf : s.fsm = .dec) (hr : s.rnd = BitVec.ofNat 5 n)
    (hm : (decRoundQuiet n s).mism = true) : tickTimes (n + 1) s = raise .nohist { s with sp := s.spSave } := by
  induction n generalizing s with
  | zero =>
    obtain ⟨p, m, e⟩ := decRoundQuiet_frame 0 s
    rw [tickTimes, tickTimes, tick_dec_last hf hr, finishDec, if_pos hm, e]
    rfl
  | succ n ih =>
    obtain ⟨p, m, e⟩ := decRoundQuiet_frame (n + 1) s
    have hm' : m = true := by rw [← hm, e]
    rw [tickTimes, tick_dec (by omega) hf hr, e]
    exact ih (by omega) hf rfl (decRoundQuiet_mism hm')

/-- The state in which DEC is about to run round `n`, no pop having failed: `p` is `SPSAVE`, the data are those of `s`. -/
abbrev decAt (n : Nat) (p : Nat) (s : State) : State := withSequencer .dec (BitVec.ofNat 5 n) p false s

/-- A decrypt round that raises nothing is the round of the running DEC. -/
theorem decRoundQuiet_decAt {n i p : Nat} {s t : State} (h : decRound i s = .ok t) :
    decRoundQuiet i (decAt n p s) = decAt n p t :=
  decRoundQuiet_ok (by rw [decRound_withSequencer, h]; rfl)

/-- A decrypt round that raises sets `MISM` in the running DEC. -/
theorem decRoundQuiet_decAt_error {n i p : Nat} {s : State} {e : ErrCode} (h : decRound i s = .error e) :
    (decRoundQuiet i (decAt n p s)).mism = true :=
  decRoundQuiet_error (e := e) (by rw [decRound_withSequencer, h]; rfl)

/-- The decrypt rounds raise nothing: neither does the first, nor do the others. -/
theorem decLoop_succ_ok {n : Nat} {s t : State} (h : decLoop (n + 1) s = .ok t) :
    ∃ u, decRound n s = .ok u ∧ decLoop n u = .ok t := by
  rw [decLoop] at h
  cases hd : decRound n s with
  | error e => rw [hd] at h; cases h
  | ok u => rw [hd] at h; exact ⟨u, rfl, h⟩

/-- The decrypt rounds raise an error: the first does, or one of the others. -/
theorem decLoop_succ_error {n : Nat} {s : State} {e : ErrCode} (h : decLoop (n + 1) s = .error e) :
    decRound n s = .error e ∨ ∃ u, decRound n s = .ok u ∧ decLoop n u = .error e := by
  rw [decLoop] at h
  cases hd : decRound n s with
  | error e' => rw [hd] at h; exact .inl h
  | ok u => rw [hd] at h; exact .inr ⟨u, rfl, h⟩

/-- An iteration of a DEC of which no pop has failed yet, this one's included. -/
theorem tick_decAt {n p : Nat} {s u : State} (hn : n < 19) (h : decRound (n + 1) s = .ok u) :
    tick (decAt (n + 1) p s) = decAt n p u := by
  rw [tick_dec hn rfl rfl, decRoundQuiet_decAt h]
  rfl

/-- The iterations from round `n` down, when no round raises: the result, the popped records gone (rules R205, R214). -/
theorem tickTimes_decAt_ok {n p : Nat} {s t : State} (hn : n < 20) (h : decLoop (n + 1) s = .ok t) :
    tickTimes (n + 1) (decAt n p s) = complete { dropPopped t with dout := storeLanes t, doutValid := true } := by
  induction n generalizing s with
  | zero =>
    obtain ⟨u, hd, hl⟩ := decLoop_succ_ok h
    cases hl
    have hm : (decAt 0 p t).mism ≠ true := Bool.false_ne_true
    rw [tickTimes, tickTimes, tick_dec_last rfl rfl, decRoundQuiet_decAt hd, finishDec, if_neg hm,
      dropPopped_withSequencer]
    rfl
  | succ n ih =>
    obtain ⟨u, hd, hl⟩ := decLoop_succ_ok h
    rw [tickTimes, tick_decAt (by omega) hd]
    exact ih (by omega) hl

/-- The iterations from round `n` down, when a round raises: NOHIST, `SP` as `SPSAVE` has it (rule R214). -/
theorem tickTimes_decAt_error {n p : Nat} {s : State} {e : ErrCode} (hn : n < 20) (h : decLoop (n + 1) s = .error e) :
    tickTimes (n + 1) (decAt n p s) = raise .nohist { s with sp := p } := by
  induction n generalizing s with
  | zero =>
    rcases decLoop_succ_error h with hd | ⟨u, -, hl⟩
    · exact tickTimes_dec_of_mism hn rfl rfl (decRoundQuiet_decAt_error hd)
    · cases hl
  | succ n ih =>
    rcases decLoop_succ_error h with hd | ⟨u, hd, hl⟩
    · exact tickTimes_dec_of_mism hn rfl rfl (decRoundQuiet_decAt_error hd)
    · rw [tickTimes, tick_decAt (by omega) hd, ih (by omega) hl, (decRound_ok hd).1]
      rfl

/-- Settles O53: while no pop has failed, iteration `n` is round `n` of the transaction; once one has, the iterations that
follow change nothing that `raise` and the restored `SP` keep. -/
theorem decRoundsAgree : Obligations.DecRoundsAgree := by
  intro s hc
  have ha : acceptCommand .dec s = decAt 19 (spRead s) (loadLanes (blockOperand s) (beginCommand s)) := by
    rw [acceptCommand, hc]
    rfl
  rw [ha]
  cases hl : decLoop 20 (loadLanes (blockOperand s) (beginCommand s)) with
  | ok t =>
    rw [tickTimes_decAt_ok (by omega) hl]
    exact exec_ok hc (by rw [bodyOf, bodyDec, hl])
  | error e =>
    obtain ⟨rfl, hm⟩ := decLoop_error hl
    have hsp : spRead s = s.sp := by
      have : s.params.arxMode = .history := hm
      rw [spRead, this]
    rw [tickTimes_decAt_error (by omega) hl, hsp, exec_bodyError hc (by rw [bodyOf, bodyDec, hl])]
    rfl

end Sys2Proof.Machine
end

section
/-! SUPPORT. The invariant (rules R28 to R32, R35, R164, R206, R207): acceptance and every iteration keep it, so every
command does, being its acceptance and its iterations (rule R6), and so does every step. -/

namespace Sys2Proof.Machine

/-! ### The parts of the invariant -/

section parts

variable {s t : State}

/-- The status registers agree whatever the data, the counters and the ports are. -/
theorem StatusInv.withData (h : StatusInv s) {l k rk v hi p d r q m io io' c} :
    StatusInv { s with
      lanes := l, ks := k, rk := rk, rkv := v, hist := hi, sp := p, dout := d, rnd := r, spSave := q, mism := m,
      ports := io, pending := io', freeCtr := c } where
  tblErr_check := h.tblErr_check
  tblErr_fault := h.tblErr_fault
  tblErr_err := h.tblErr_err
  err_le := h.err_le
  err_fault := h.err_fault
  valid_done := h.valid_done
  busy_clear := h.busy_clear

/-- At acceptance the flags are cleared, and the engine is no longer idle (rules R30, R98). -/
theorem StatusInv.accept (h : StatusInv s) {f : Fsm} (hf : f ≠ .idle) : StatusInv { beginCommand s with fsm := f } where
  tblErr_check := h.tblErr_check
  tblErr_fault := h.tblErr_fault
  tblErr_err _ hi := absurd hi hf
  err_le := Nat.zero_le 5
  err_fault he := absurd rfl he
  valid_done hv := nomatch hv
  busy_clear _ := ⟨rfl, rfl, rfl⟩

/-- The status after a completion without error, which no command has while `TBLERR = 1` (rules R35, R230). -/
theorem statusInv_complete (hc : t.tblErr = selfCheckFails t.params.tables) (ht : t.tblErr = false) :
    StatusInv (complete t) where
  tblErr_check := hc
  tblErr_fault h := absurd h (by simp [ht])
  tblErr_err h := absurd h (by simp [ht])
  err_le := Nat.zero_le 5
  err_fault h := absurd rfl h
  valid_done _ := ⟨rfl, rfl⟩
  busy_clear h := absurd rfl h

/-- The status after an error, which is TABLE while `TBLERR = 1` (rules R35, R262). -/
theorem statusInv_raise {e : ErrCode} (hc : s.tblErr = selfCheckFails s.params.tables)
    (he : s.tblErr = true → e = .table) : StatusInv (raise e s) where
  tblErr_check := hc
  tblErr_fault _ := rfl
  tblErr_err h _ := congrArg errBits (he h)
  err_le := by
    show (errBits e).toNat ≤ 5
    cases e <;> decide
  err_fault _ := rfl
  valid_done h := nomatch h
  busy_clear h := absurd rfl h

/-- The storage part looks at the parameters, `HIST` and `SP` only. -/
theorem StoreInv.congr (h : StoreInv s) (hp : t.params = s.params) (hh : t.hist = s.hist) (hs : t.sp = s.sp) :
    StoreInv t where
  records := hh ▸ h.records
  depth := hp ▸ h.depth
  room := by rw [hp, hh]; exact h.room
  stateless := by rw [hp, hh, hs]; exact h.stateless

/-- An idle engine holds whole blocks. -/
theorem SeqInv.of_idle (h : SeqInv s) (hf : s.fsm = .idle) : s.hist.length = s.sp ∧ s.sp % 40 = 0 := by
  rwa [SeqInv, hf] at h

/-- The invariant after a completion without error. -/
theorem inv_complete (hc : t.tblErr = selfCheckFails t.params.tables) (ht : t.tblErr = false) (hs : StoreInv t)
    (hl : t.hist.length = t.sp) (h40 : t.sp % 40 = 0) : Inv (complete t) where
  status := statusInv_complete hc ht
  store := hs.congr rfl rfl rfl
  seq := ⟨hl, h40⟩

/-- The invariant after an error. -/
theorem inv_raise {e : ErrCode} (hc : s.tblErr = selfCheckFails s.params.tables) (he : s.tblErr = true → e = .table)
    (hs : StoreInv s) (hl : s.hist.length = s.sp) (h40 : s.sp % 40 = 0) : Inv (raise e s) where
  status := statusInv_raise hc he
  store := hs.congr rfl rfl rfl
  seq := ⟨hl, h40⟩

/-- The invariant does not look at the ports. -/
theorem Inv.withPorts (h : Inv s) (io : Ports) (io' : List Ports) : Inv { s with ports := io, pending := io' } where
  status := h.status.withData
  store := h.store.congr rfl rfl rfl
  seq := h.seq

theorem Inv.advancePorts (h : Inv s) : Inv (advancePorts s) := by
  unfold Machine.advancePorts
  split
  · exact h.withPorts .quiet s.pending
  · exact h.withPorts _ _

end parts

/-! ### Round numbers -/

section rnd

variable {r : BitVec 5}

/-- A round number that is not the last of an upward loop. -/
theorem rnd_lt_nineteen (h : r.toNat < 20) (hne : r ≠ 19) : r.toNat < 19 := by bv_omega

/-- The next round number, upwards. -/
theorem toNat_rnd_succ (h : r.toNat < 20) : (r + 1).toNat = r.toNat + 1 := by bv_omega

/-- The next round number, downwards. -/
theorem toNat_rnd_pred (hne : r ≠ 0) : (r - 1).toNat + 1 = r.toNat := by bv_omega

end rnd

/-! ### The history under the rounds -/

section rounds

variable {s : State}

/-- After an encrypt round there are again as many records as `SP` says. -/
theorem length_hist_encRound (n : Nat) (hl : s.hist.length = s.sp) :
    (encRound n s).hist.length = (encRound n s).sp := by
  cases hm : s.params.arxMode with
  | history => simp [encRound_history n hm, hl]
  | stateless => simpa [encRound_stateless n hm] using hl

/-- An encrypt round makes two pushes, in `HISTORY` mode (rule R206). -/
theorem sp_encRound (n : Nat) (hm : s.params.arxMode = .history) : (encRound n s).sp = s.sp + 2 := by
  rw [encRound_history n hm]

/-- An encrypt round with room for two records keeps the storage part (rules R163, R164). -/
theorem StoreInv.encRound (h : StoreInv s) (n : Nat) (hl : s.hist.length = s.sp)
    (hr : s.params.arxMode = .history → ∀ d, s.params.histDepth = some d → s.sp + 2 ≤ d) :
    StoreInv (encRound n s) := by
  cases hm : s.params.arxMode with
  | stateless =>
    rw [encRound_stateless n hm]
    exact h.congr rfl rfl rfl
  | history =>
    rw [encRound_history n hm]
    refine ⟨fun r hr => ?_, h.depth, fun _ d hd => ?_, fun hs => nomatch hm.symm.trans hs⟩
    · simp only [List.mem_append, List.mem_cons, List.not_mem_nil, or_false] at hr
      rcases hr with hr | rfl | rfl
      · exact h.records r (List.mem_of_mem_take hr)
      · rfl
      · rfl
    · have := hr hm d hd
      simpa [hl] using this

/-- A decrypt round of the running DEC keeps the storage part: it writes no record (rule R214). -/
theorem StoreInv.decRoundQuiet (h : StoreInv s) (n : Nat) : StoreInv (decRoundQuiet n s) := by
  have hsp := (decRoundQuiet_sp n s).1
  obtain ⟨p, m, e⟩ := decRoundQuiet_frame n s
  rw [e] at hsp ⊢
  refine ⟨h.records, h.depth, h.room, fun hm => ?_⟩
  obtain ⟨h0, hnil⟩ := h.stateless hm
  exact ⟨Nat.le_zero.1 (h0 ▸ hsp), hnil⟩

/-- Dropping the popped records keeps the storage part. -/
theorem StoreInv.dropPopped (h : StoreInv s) : StoreInv (dropPopped s) := by
  unfold Machine.dropPopped
  split
  case h_1 hm =>
    exact ⟨fun r hr => h.records r (List.mem_of_mem_take hr), h.depth,
      fun _ d hd => (List.length_take_le' _ _).trans (h.room hm d hd), fun hs => nomatch hm.symm.trans hs⟩
  case h_2 => exact h

end rounds

/-! ### Acceptance -/

/-- Everything acceptance can do: the flags are cleared, the engine leaves `IDLE`, and the work registers are set up
(rules R30, R98, R212 to R214). -/
theorem acceptCommand_frame (i : Instr) (s : State) : ∃ l k r p m f,
    acceptCommand i s = { beginCommand s with lanes := l, ks := k, rnd := r, spSave := p, mism := m, fsm := f } ∧
      f ≠ .idle := by
  rw [acceptCommand]
  cases check i s with
  | some e => exact ⟨_, _, _, _, _, _, rfl, nofun⟩
  | none => cases i <;> exact ⟨_, _, _, _, _, _, rfl, nofun⟩

/-- `SP` reads as it stands, in `STATELESS` mode too (rule R22). -/
theorem StoreInv.spRead_eq {s : State} (h : StoreInv s) : spRead s = s.sp := by
  unfold spRead
  cases hm : s.params.arxMode with
  | history => rfl
  | stateless => exact (h.stateless hm).1.symm

/-- What the sequencer part asks of a command that has just been accepted (rules R30, R212 to R214). -/
theorem seqInv_acceptCommand {s : State} (h : Inv s) (hf : s.fsm = .idle) (i : Instr) :
    SeqInv (acceptCommand i s) := by
  obtain ⟨hl, h40⟩ := h.seq.of_idle hf
  rw [acceptCommand]
  cases hc : check i s with
  | some e =>
    refine ⟨hl, h40, fun ht => ?_, nofun⟩
    cases (check_eq_some_table ht).symm.trans hc
    rfl
  | none =>
    obtain ⟨ht, hlegal, hkeys, hroom⟩ := check_eq_none.1 hc
    have hno : ∀ {P : Prop}, s.tblErr = true → P := fun h => nomatch ht.symm.trans h
    cases i with
    | nop => exact ⟨hl, h40, hno, nofun⟩
    | keygen => exact ⟨hl, h40, ht, Nat.zero_lt_succ _⟩
    | enc =>
      refine ⟨hl, ht, hkeys, Nat.zero_lt_succ _, fun (hm : s.params.arxMode = .history) => ⟨h40, ?_⟩⟩
      intro d (hd : s.params.histDepth = some d)
      show s.sp + 40 ≤ d
      simpa [historyRoom, hRoom, hm, hd] using hroom
    | dec =>
      have hsp := h.store.spRead_eq
      exact ⟨hl.trans hsp.symm, (congrArg (· % 40) hsp).trans h40, hsp.ge, ht, hkeys, Nat.lt_succ_self 19,
        fun _ _ => hsp.symm⟩
    | rdrk idx =>
      refine ⟨hl, h40, hno, fun j hj => ?_⟩
      cases hj
      exact ⟨hlegal, hkeys⟩
    | wrrk idx => exact ⟨hl, h40, hno, nofun⟩
    | clrh => exact ⟨hl, h40, hno, nofun⟩
    | illegal w => cases hlegal

/-- Acceptance of a command keeps the invariant. -/
theorem Inv.acceptCommand {s : State} (h : Inv s) (hf : s.fsm = .idle) (i : Instr) : Inv (acceptCommand i s) := by
  have hseq := seqInv_acceptCommand h hf i
  obtain ⟨_, _, _, _, _, f, e, hne⟩ := acceptCommand_frame i s
  rw [e] at hseq ⊢
  exact ⟨(h.status.accept hne).withData, h.store.congr rfl rfl rfl, hseq⟩

/-! ### The iterations -/

section iterations

variable {s : State}

/-- An iteration of KEYGEN keeps the invariant (rule R212). -/
theorem Inv.tickKeygen (h : Inv s) (hf : s.fsm = .keygen) : Inv (tickKeygen s) := by
  have hseq := h.seq
  rw [SeqInv, hf] at hseq
  obtain ⟨hl, h40, ht, hr⟩ := hseq
  unfold Machine.tickKeygen
  dsimp only
  split
  case isTrue => exact inv_complete h.status.tblErr_check ht (h.store.congr rfl rfl rfl) hl h40
  case isFalse hne =>
    refine ⟨h.status.withData, h.store.congr rfl rfl rfl, ?_⟩
    show SeqInv { rkWrite _ _ _ with rnd := s.rnd + 1 }
    have := rnd_lt_nineteen hr hne
    simp only [SeqInv, rkWrite_fsm, hf]
    exact ⟨hl, h40, ht, by rw [toNat_rnd_succ hr]; omega⟩

/-- An iteration of ENC keeps the invariant: two more pushes, one more round (rules R206, R213). -/
theorem Inv.tickEnc (h : Inv s) (hf : s.fsm = .enc) : Inv (tickEnc s) := by
  have hseq := h.seq
  rw [SeqInv, hf] at hseq
  obtain ⟨hl, ht, hk, hr, hm⟩ := hseq
  have hlen := length_hist_encRound s.rnd.toNat hl
  have hsp := sp_encRound (s := s) s.rnd.toNat
  have hstore := h.store.encRound s.rnd.toNat hl fun hh d hd => by
    have := (hm hh).2 d hd
    omega
  obtain ⟨l, hi, p, e⟩ := encRound_frame s.rnd.toNat s
  unfold Machine.tickEnc
  rw [e] at hlen hsp hstore ⊢
  dsimp only at hlen hsp ⊢
  split
  case isTrue h19 =>
    refine inv_complete h.status.tblErr_check ht (hstore.congr rfl rfl rfl) hlen ?_
    show p % 40 = 0
    have h19 : s.rnd.toNat = 19 := congrArg BitVec.toNat h19
    cases hh : s.params.arxMode with
    | history =>
      have hcount := (hm hh).1
      have := hsp hh
      omega
    | stateless =>
      have h0 : p = 0 := (hstore.stateless hh).1
      rw [h0]
  case isFalse hne =>
    refine ⟨h.status.withData, hstore.congr rfl rfl rfl, ?_⟩
    have hlt := rnd_lt_nineteen hr hne
    have hr' := toNat_rnd_succ hr
    simp only [SeqInv, hf, hr']
    refine ⟨hlen, ht, hk, by omega, fun hh => ?_⟩
    obtain ⟨hcount, hroom⟩ := hm hh
    have := hsp hh
    refine ⟨by omega, fun d hd => ?_⟩
    have := hroom d hd
    omega

/-- The stack after a successful DEC: as many records as `SP` says, and whole blocks (rules R28, R207). -/
theorem dropPopped_blocks (hs : StoreInv s) (hl : s.hist.length = s.spSave) (h40 : s.spSave % 40 = 0)
    (hp : s.params.arxMode = .history → s.sp + 40 = s.spSave) :
    (dropPopped s).hist.length = (dropPopped s).sp ∧ (dropPopped s).sp % 40 = 0 := by
  cases hm : s.params.arxMode with
  | history =>
    have := hp hm
    simp only [dropPopped, hm, List.length_take]
    omega
  | stateless => simp [dropPopped, hm, hs.stateless hm]

/-- The end of DEC keeps the invariant: the stack is as at acceptance, or 40 records shorter (rules R207, R214). -/
theorem Inv.finishDec (hc : s.tblErr = selfCheckFails s.params.tables) (ht : s.tblErr = false) (hs : StoreInv s)
    (hl : s.hist.length = s.spSave) (h40 : s.spSave % 40 = 0)
    (hp : s.params.arxMode = .history → s.mism = false → s.sp + 40 = s.spSave) : Inv (finishDec s) := by
  unfold Machine.finishDec
  split
  case isTrue =>
    refine inv_raise hc (fun h => by simp [ht] at h) ⟨hs.records, hs.depth, hs.room, fun hm => ?_⟩ hl h40
    have hnil := (hs.stateless hm).2
    exact ⟨hl.symm.trans (by rw [hnil]; rfl), hnil⟩
  case isFalse hmm =>
    have hmm : s.mism = false := Bool.eq_false_of_not_eq_true hmm
    obtain ⟨hlen, hblocks⟩ := dropPopped_blocks hs hl h40 fun hm => hp hm hmm
    exact inv_complete (by simpa using hc) (by simpa using ht) (hs.dropPopped.congr rfl rfl rfl) hlen hblocks

/-- An iteration of DEC keeps the invariant: two more pops unless one failed, one round fewer (rules R207, R214). -/
theorem Inv.tickDec (h : Inv s) (hf : s.fsm = .dec) : Inv (tickDec s) := by
  have hseq := h.seq
  rw [SeqInv, hf] at hseq
  obtain ⟨hl, h40, hle, ht, hk, hr, hp⟩ := hseq
  have hstore := h.store.decRoundQuiet s.rnd.toNat
  obtain ⟨hsp, hpop⟩ := decRoundQuiet_sp s.rnd.toNat s
  obtain ⟨p, m, e⟩ := decRoundQuiet_frame s.rnd.toNat s
  unfold Machine.tickDec
  rw [e] at hstore hsp hpop ⊢
  dsimp only at hsp hpop ⊢
  split
  case isTrue h0 =>
    refine Inv.finishDec h.status.tblErr_check ht hstore hl h40 fun hm hmm => ?_
    obtain ⟨hms, hsp2⟩ := hpop hmm
    have h0 : s.rnd.toNat = 0 := congrArg BitVec.toNat h0
    have := hp hm hms
    have := hsp2 hm
    show p + 40 = s.spSave
    omega
  case isFalse hne =>
    refine ⟨h.status.withData, hstore.congr rfl rfl rfl, ?_⟩
    have hr' := toNat_rnd_pred hne
    simp only [SeqInv, hf]
    refine ⟨hl, h40, hsp.trans hle, ht, hk, by omega, fun hm hmm => ?_⟩
    obtain ⟨hms, hsp2⟩ := hpop hmm
    have := hp hm hms
    have := hsp2 hm
    omega

/-- The iteration of `SHORT` keeps the invariant (rule R30). -/
theorem Inv.tickShort {op : ShortOp} (h : Inv s) (hf : s.fsm = .short op) : Inv (tickShort op s) := by
  have hseq := h.seq
  rw [SeqInv, hf] at hseq
  obtain ⟨hl, h40, htable, -⟩ := hseq
  have hraise : ∀ e, (s.tblErr = true → e = .table) → Inv (raise e s) := fun e he =>
    inv_raise h.status.tblErr_check he h.store hl h40
  have ht : (∀ e, op ≠ .error e) → s.tblErr = false := fun hop =>
    Bool.eq_false_of_not_eq_true fun ht => hop _ (htable ht)
  unfold Machine.tickShort
  cases op with
  | nop => exact inv_complete h.status.tblErr_check (ht nofun) h.store hl h40
  | rdrk idx =>
    have ht := ht nofun
    unfold bodyRdrk
    dsimp only
    split
    · exact inv_complete h.status.tblErr_check ht (h.store.congr rfl rfl rfl) hl h40
    · exact hraise _ (by simp [ht])
  | wrrk idx v =>
    have ht := ht nofun
    unfold bodyWrrk
    dsimp only
    split
    · exact inv_complete h.status.tblErr_check ht (h.store.congr rfl rfl rfl) hl h40
    · exact hraise _ (by simp [ht])
  | clrh =>
    have ht := ht nofun
    unfold bodyClrh
    dsimp only
    split
    case h_1 hm =>
      exact inv_complete h.status.tblErr_check ht
        ⟨nofun, h.store.depth, fun _ _ _ => Nat.zero_le _, fun hs => nomatch hm.symm.trans hs⟩ rfl rfl
    case h_2 => exact inv_complete h.status.tblErr_check ht h.store hl h40
  | error e =>
    refine hraise e fun ht => ?_
    cases htable ht
    rfl

/-- Every iteration keeps the invariant. -/
theorem Inv.tick (h : Inv s) : Inv (tick s) := by
  unfold Machine.tick
  cases hf : s.fsm with
  | idle => exact h
  | keygen => exact h.tickKeygen hf
  | enc => exact h.tickEnc hf
  | dec => exact h.tickDec hf
  | short op => exact h.tickShort hf

/-- Any number of iterations keeps the invariant. -/
theorem Inv.tickTimes (h : Inv s) (n : Nat) : Inv (tickTimes n s) := by
  induction n generalizing s with
  | zero => exact h
  | succ n ih => exact ih h.tick

end iterations

/-! ### Commands and steps -/

/-- Every command is its acceptance and some iterations (rule R6). -/
theorem exec_eq_tickTimes (i : Instr) (s : State) : ∃ n, exec i s = .next (tickTimes n (acceptCommand i s)) := by
  by_cases hshort : check i s ≠ none ∨ (i ≠ .keygen ∧ i ≠ .enc ∧ i ≠ .dec)
  · exact ⟨1, shortCommandsAgree i s hshort⟩
  · obtain ⟨hc, hi⟩ := not_or.1 hshort
    have hc : check i s = none := not_not.1 hc
    have hi : i = .keygen ∨ i = .enc ∨ i = .dec := by tauto
    refine ⟨20, ?_⟩
    rcases hi with rfl | rfl | rfl
    · exact keygenRoundsAgree s (check_eq_none.1 hc).1
    · exact encRoundsAgree s hc
    · exact decRoundsAgree s hc

/-- Every command keeps the invariant. -/
theorem Inv.exec {i : Instr} {s t : State} (h : Inv s) (hf : s.fsm = .idle) (he : exec i s = .next t) : Inv t := by
  obtain ⟨n, hn⟩ := exec_eq_tickTimes i s
  cases hn.symm.trans he
  exact (h.acceptCommand hf i).tickTimes n

/-- A reset edge leaves a state that meets the invariant (rules R40, R300). -/
theorem Inv.resetEngine {s : State} (h : Inv s) : Inv (resetEngine s) :=
  have hr := inv_resetFor h.store.depth
  ⟨hr.status.withData, hr.store.congr rfl rfl rfl, hr.seq⟩

/-- Settles O57, by the cases of a step: a reset, an iteration, a whole command, or nothing to do. -/
theorem stepKeepsInvariant : Obligations.StepKeepsInvariant := by
  intro s t h hs
  rcases step_cases s with ⟨-, e⟩ | ⟨-, -, e⟩ | ⟨-, hf, -, u, hu, e⟩ | ⟨-, -, -, e⟩ <;>
    cases e.symm.trans hs
  · exact h.resetEngine.advancePorts
  · exact h.tick.advancePorts
  · exact (h.exec hf hu).advancePorts
  · exact h.advancePorts

/-! ### The end of a running command -/

/-- How many iterations the running command still takes (rules R30, R212 to R214). -/
def ticksLeft (s : State) : Nat :=
  match s.fsm with
  | .idle => 0
  | .keygen => 20 - s.rnd.toNat
  | .enc => 20 - s.rnd.toNat
  | .dec => s.rnd.toNat + 1
  | .short _ => 1

section iterationsLeft

variable {s : State}

theorem ticksLeft_of_idle (hf : s.fsm = .idle) : ticksLeft s = 0 := by
  rw [ticksLeft, hf]

/-- The round number of a running command is below 20. -/
theorem ticksLeft_le (h : Inv s) : ticksLeft s ≤ 20 := by
  have hseq := h.seq
  rw [SeqInv] at hseq
  rw [ticksLeft]
  cases hf : s.fsm with
  | idle => exact Nat.zero_le _
  | keygen => exact Nat.sub_le _ _
  | enc => exact Nat.sub_le _ _
  | dec =>
    rw [hf] at hseq
    obtain ⟨-, -, -, -, -, hr, -⟩ := hseq
    exact hr
  | short op => exact Nat.le_of_ble_eq_true rfl

/-- The engine is idle when no iteration is left. -/
theorem fsm_idle_of_ticksLeft (h : Inv s) (h0 : ticksLeft s = 0) : s.fsm = .idle := by
  have hseq := h.seq
  rw [SeqInv] at hseq
  rw [ticksLeft] at h0
  cases hf : s.fsm with
  | idle => rfl
  | keygen =>
    rw [hf] at hseq h0
    obtain ⟨-, -, -, hr⟩ := hseq
    exact absurd h0 (Nat.sub_ne_zero_of_lt hr)
  | enc =>
    rw [hf] at hseq h0
    obtain ⟨-, -, -, hr, -⟩ := hseq
    exact absurd h0 (Nat.sub_ne_zero_of_lt hr)
  | dec => rw [hf] at h0; cases h0
  | short op => rw [hf] at h0; cases h0

/-- A finished DEC leaves the engine idle, with a result or with NOHIST (rule R214). -/
theorem finishDec_fsm (s : State) : (finishDec s).fsm = .idle := by
  unfold finishDec
  split <;> rfl

/-- The iteration of `SHORT` leaves the engine idle (rule R30). -/
theorem tickShort_fsm (op : ShortOp) (s : State) : (tickShort op s).fsm = .idle := by
  have hfinish : ∀ r, (finishShort s r).fsm = .idle := fun r => by cases r <;> rfl
  cases op with
  | error e => rfl
  | _ => exact hfinish _

/-- Every iteration leaves one fewer (rules R211 to R214). -/
theorem ticksLeft_tick (h : Inv s) (hf : s.fsm ≠ .idle) : ticksLeft (tick s) + 1 = ticksLeft s := by
  have hseq := h.seq
  rw [SeqInv] at hseq
  rw [tick, ticksLeft.eq_def s]
  cases hs : s.fsm with
  | idle => exact absurd hs hf
  | keygen =>
    rw [hs] at hseq
    obtain ⟨-, -, -, hr⟩ := hseq
    simp only [tickKeygen]
    split
    case isTrue h19 => rw [h19]; rfl
    case isFalse hne =>
      have := toNat_rnd_succ hr
      simp only [ticksLeft, rkWrite_fsm, hs]
      omega
  | enc =>
    rw [hs] at hseq
    obtain ⟨-, -, -, hr, -⟩ := hseq
    obtain ⟨l, hi, p, e⟩ := encRound_frame s.rnd.toNat s
    simp only [tickEnc, e]
    split
    case isTrue h19 => rw [h19]; rfl
    case isFalse hne =>
      have := toNat_rnd_succ hr
      simp only [ticksLeft, hs]
      omega
  | dec =>
    obtain ⟨p, m, e⟩ := decRoundQuiet_frame s.rnd.toNat s
    simp only [tickDec, e]
    split
    case isTrue h0 => rw [ticksLeft_of_idle (finishDec_fsm _), h0]; rfl
    case isFalse hne =>
      have := toNat_rnd_pred hne
      simp only [ticksLeft, hs]
      omega
  | short op =>
    dsimp only
    rw [ticksLeft_of_idle (tickShort_fsm op s)]

/-- After the iterations that are left the engine is idle. -/
theorem tickTimes_ticksLeft {n : Nat} (h : Inv s) (hn : ticksLeft s = n) : (tickTimes n s).fsm = .idle := by
  induction n generalizing s with
  | zero => exact fsm_idle_of_ticksLeft h hn
  | succ n ih =>
    have hf : s.fsm ≠ .idle := fun hf => by
      rw [ticksLeft_of_idle hf] at hn
      cases hn
    exact ih h.tick (Nat.succ.inj ((ticksLeft_tick h hf).trans hn))

end iterationsLeft

/-- Settles O60: the iterations that are left are at most 20, and every one leaves one fewer. -/
theorem runningCommandEnds : Obligations.RunningCommandEnds := fun s h =>
  ⟨ticksLeft s, ticksLeft_le h, tickTimes_ticksLeft h rfl⟩

end Sys2Proof.Machine
end

section
/-! SUPPORT. What commands and steps leave unchanged (rules R25 to R29, R32, R39, R262), the reset edge (rule R300), and
the status word (rule R38): the frame of a command, read off from its two ways to end, and that of a
step without reset. -/

namespace Sys2Proof.Machine

/-! ### Commands -/

section commands

variable {i : Instr} {s t : State}

/-- The two ways a command can end. -/
theorem exec_next_cases (h : exec i s = .next t) :
    (∃ e, t = raise e s) ∨ (∃ u, t = complete u ∧ BodyFrame i s u) := by
  rcases exec_frame i s with ⟨e, he⟩ | ⟨u, hu, hframe⟩
  · cases he.symm.trans h
    exact .inl ⟨e, rfl⟩
  · cases hu.symm.trans h
    exact .inr ⟨u, rfl, hframe⟩

/-- Settles O25: an error withdraws the result, and the body of a command that ends well decides its validity. -/
theorem resultValidity : Obligations.ResultValidity := by
  intro i s t h
  rcases exec_next_cases h with ⟨e, rfl⟩ | ⟨u, rfl, hframe⟩
  · simp
  · simpa using ⟨hframe.valid, hframe.dout⟩

/-- After a command `FAULT` is as before, or set when `ERR` is not 0 (rule R32). -/
theorem exec_fault (h : exec i s = .next t) : t.fault = true ↔ s.fault = true ∨ t.err ≠ 0 := by
  rcases exec_next_cases h with ⟨e, rfl⟩ | ⟨u, rfl, hframe⟩
  · simp
  · simp [hframe.fault]

/-- A command clears no valid bit (rule R27). -/
theorem exec_rkv (h : exec i s = .next t) (n : Fin 20) (hn : s.rkv[n] = true) : t.rkv[n] = true := by
  rcases exec_next_cases h with ⟨e, rfl⟩ | ⟨u, rfl, hframe⟩
  · exact hn
  · exact hframe.rkv n hn

/-- A command leaves the parameters, the self-check's result and the ports alone (rules R39, R230). -/
theorem exec_same (h : exec i s = .next t) : SameInstance s t := by
  rcases exec_next_cases h with ⟨e, rfl⟩ | ⟨u, rfl, hframe⟩
  · exact (endsWith_raise e s).same
  · obtain ⟨hp, ht, hio, hio'⟩ := hframe.same
    exact ⟨hp, ht, hio, hio'⟩

/-- A command other than KEYGEN and WRRK leaves the round-key file alone (rule R26). -/
theorem exec_sameKeys (h : exec i s = .next t) (hk : i ≠ .keygen) (hw : ∀ idx, i ≠ .wrrk idx) : SameKeys s t := by
  rcases exec_next_cases h with ⟨e, rfl⟩ | ⟨u, rfl, hframe⟩
  · exact (endsWith_raise e s).keys
  · obtain ⟨hrk, hrkv⟩ := hframe.keys hk hw
    exact ⟨hrk, hrkv⟩

/-- Settles O28: an error leaves the history as it was, and so does every body but those of ENC, DEC and CLRH. -/
theorem historyFrame : Obligations.HistoryFrame := by
  intro i s t h he hd hc
  rcases exec_next_cases h with ⟨e, rfl⟩ | ⟨u, rfl, hframe⟩
  · exact (endsWith_raise e s).history
  · obtain ⟨hh, hsp⟩ := hframe.hist he hd hc
    exact ⟨hh, hsp⟩

/-- Settles O19: `TBLERR` is tested first. -/
theorem tableErrorStopsEveryCommand : Obligations.TableErrorStopsEveryCommand := fun _ s h =>
  ⟨_, exec_checkError (check_eq_some_table h), endsWith_raise .table s⟩

/-- A command that lacks a round key ends with NOKEY (rule R231). -/
theorem exec_nokey (ht : s.tblErr = false) (hl : legal i = true) (hk : keysWritten i s = false) :
    ∃ t, exec i s = .next t ∧ EndsWith .nokey s t :=
  ⟨_, exec_checkError (check_nokey ht hl hk), endsWith_raise .nokey s⟩

/-- Settles O20: `keysWritten` is `KEYOK` for ENC and DEC, and the entry's own valid bit for RDRK. -/
theorem missingKeysGiveNokey : Obligations.MissingKeysGiveNokey := by
  refine fun s ht => ⟨fun hk => ⟨exec_nokey ht rfl hk, exec_nokey ht rfl hk⟩,
    fun idx hi hv => exec_nokey ht ?_ ?_⟩
  · exact decide_eq_true hi
  · rw [keysWritten, rkIndex_eq_some hi]
    exact hv

end commands

/-! ### Steps -/

section steps

variable {s t : State}

/-- A command stays within the frame of an iteration. -/
theorem exec_tickFrame {i : Instr} (h : exec i s = .next t) : TickFrame s t where
  same := exec_same h
  fault hf := (exec_fault h).2 (.inl hf)
  rkv := exec_rkv h

/-- A step without reset stays within the frame of an iteration, and then the port samples move on. -/
theorem step_tickFrame (h : step s = .next t) (hr : s.ports.rst = false) :
    ∃ u, TickFrame s u ∧ t = advancePorts u := by
  rcases step_cases s with ⟨hr', -⟩ | ⟨-, -, e⟩ | ⟨-, -, -, u, hu, e⟩ | ⟨-, -, -, e⟩
  · exact nomatch hr.symm.trans hr'
  · cases e.symm.trans h
    exact ⟨_, tick_frame s, rfl⟩
  · cases e.symm.trans h
    exact ⟨u, exec_tickFrame hu, rfl⟩
  · cases e.symm.trans h
    exact ⟨s, ⟨⟨rfl, rfl, rfl, rfl⟩, id, fun _ => id⟩, rfl⟩

/-- A step with reset (rule R300). -/
theorem step_reset (hr : s.ports.rst = true) : step s = .next (advancePorts (resetEngine s)) := if_pos hr

/-- When the self-check fails (rules R124, R125). -/
theorem selfCheckFails_eq_true {t : Tables} : selfCheckFails t = true ↔ ¬ TablesOk t := by
  rw [selfCheckFails, Bool.not_eq_true', decide_eq_false_iff_not]

/-- Settles O26: for a command by its two ways to end, for a step by its frame, for a reset by the self-check. -/
theorem faultIsSticky : Obligations.FaultIsSticky := by
  refine ⟨fun _ _ _ => exec_fault, fun s t h hf hr => ?_, fun s t h hr => ?_⟩
  · obtain ⟨u, hframe, rfl⟩ := step_tickFrame h hr
    simpa using hframe.fault hf
  · cases (step_reset hr).symm.trans h
    simpa [State.resetFor] using selfCheckFails_eq_true (t := s.params.tables)

/-- Settles O27, by the frames of a command and of a step without reset. -/
theorem keyFileFrame : Obligations.KeyFileFrame := by
  refine ⟨fun _ _ _ => exec_sameKeys, fun s t h hr n hn => ?_⟩
  obtain ⟨u, hframe, rfl⟩ := step_tickFrame h hr
  simpa using hframe.rkv n hn

/-- Settles O29: a reset keeps the parameters, and so does the frame of every other step. -/
theorem parametersConstant : Obligations.ParametersConstant := by
  intro s t h
  cases hr : s.ports.rst with
  | true =>
    cases (step_reset hr).symm.trans h
    simp
  | false =>
    obtain ⟨u, hframe, rfl⟩ := step_tickFrame h hr
    simpa using hframe.same.params

/-- Settles O9: the state of rule R40, where `ERR`, `FAULT` and `TBLERR` are as the self-check says. -/
theorem resetEdgeState : Obligations.ResetEdgeState := by
  refine fun s hr => ⟨_, step_reset hr, ?_⟩
  simp only [advancePorts_rkv, advancePorts_sp, advancePorts_hist, advancePorts_doutValid, advancePorts_fsm,
    advancePorts_done, advancePorts_params, advancePorts_err, advancePorts_fault, advancePorts_tblErr]
  refine ⟨rfl, rfl, rfl, rfl, rfl, rfl, rfl, fun hok => ?_, fun hbad => ?_⟩
  · simp [State.resetFor, selfCheckFails_eq_false.2 hok]
  · simp [State.resetFor, selfCheckFails_eq_true.2 hbad, errBits]

end steps

/-! ### The status word -/

section statusWord

variable (s : State)

/-- `KEYOK` is 1 when every entry has been written (rule R27). -/
theorem keyOk_iff : keyOk s = true ↔ ∀ n : Fin 20, s.rkv[n] = true := by
  simp [keyOk, Fin.forall_iff]

/-- `HEMPTY` (rules R22, R38). -/
theorem hEmpty_iff : hEmpty s = true ↔ s.params.arxMode = .stateless ∨ s.sp = 0 := by
  unfold hEmpty spRead
  cases s.params.arxMode <;> simp

/-- `HROOM` (rules R38, R164). -/
theorem hRoom_iff : hRoom s = true ↔
    s.params.arxMode = .stateless ∨ ∀ d, s.params.histDepth = some d → s.sp + 40 ≤ d := by
  unfold hRoom
  cases s.params.arxMode <;> cases s.params.histDepth <;> simp

/-- `BUSY` (rule R34). -/
theorem busy_iff : busy s = true ↔ s.fsm ≠ .idle := by
  simp [busy]

/-- The eight flags of the status word, bit by bit (rule R38). -/
theorem status_flags :
    (status s).getLsbD 0 = busy s ∧ (status s).getLsbD 1 = s.done ∧ (status s).getLsbD 2 = s.doutValid ∧
    (status s).getLsbD 3 = s.fault ∧ (status s).getLsbD 4 = s.tblErr ∧ (status s).getLsbD 5 = keyOk s ∧
    (status s).getLsbD 6 = hEmpty s ∧ (status s).getLsbD 7 = hRoom s := by
  simp only [status, BitVec.getLsbD_append]
  simp

/-- `ERR` in the status word (rule R38). -/
theorem status_err : (status s).extractLsb' 8 3 = s.err := by
  apply BitVec.eq_of_getLsbD_eq
  intro i hi
  simp only [status, BitVec.getLsbD_extractLsb', BitVec.getLsbD_append]
  interval_cases i <;> simp

/-- The bits above are 0 (rule R38). -/
theorem status_reserved : (status s).extractLsb' 11 5 = 0 := by
  apply BitVec.eq_of_getLsbD_eq
  intro i hi
  simp only [status, BitVec.getLsbD_extractLsb', BitVec.getLsbD_append]
  interval_cases i <;> simp

end statusWord

/-- Settles O55, from the fields of the status word and from what each flag says. -/
theorem statusLayout : Obligations.StatusLayout := by
  intro s
  obtain ⟨h0, h1, h2, h3, h4, h5, h6, h7⟩ := status_flags s
  exact ⟨h0, h1, h2, h3, h4, h5, h6, h7, status_err s, status_reserved s, busy_iff s, keyOk_iff s, hEmpty_iff s,
    hRoom_iff s⟩

end Sys2Proof.Machine
end

section
/-! SUPPORT. The bodies of ENC and DEC in closed form (rules R202, R205 to R207, R234, R235): what each writes, and when
a DEC accepts the records on the stack. -/

namespace Sys2Proof.Machine

/-- The state in which the body of ENC ends (rules R202, R206, R234). -/
def encDone (blk : Block) (s : State) : State :=
  { s with
    lanes := encLanesLoop s.params.tables s.rk 20 (lanesOf blk)
    hist := match s.params.arxMode with
      | .history => s.hist.take s.sp ++ (encTrace s.params.tables s.rk blk).map recOf
      | .stateless => s.hist
    sp := match s.params.arxMode with
      | .history => s.sp + 40
      | .stateless => s.sp
    dout := encryptBlock s.params.tables s.rk blk
    doutValid := true }

/-- The records that a DEC of `blk` pops carry the values its rounds recover (rule R207). -/
def DecAccepts (blk : Block) (s : State) : Prop :=
  s.params.arxMode = .history →
    s.sp ≤ s.hist.length ∧ decPops s.params.tables s.rk blk <+: topXs s.hist s.sp

/-- The state in which the body of DEC ends when it raises nothing (rules R205, R207, R235). -/
def decDone (blk : Block) (s : State) : State :=
  { s with
    lanes := decLanesLoop s.params.tables s.rk 20 (lanesOf blk)
    hist := match s.params.arxMode with
      | .history => s.hist.take (s.sp - 40)
      | .stateless => s.hist
    sp := match s.params.arxMode with
      | .history => s.sp - 40
      | .stateless => s.sp
    dout := decryptBlock s.params.tables s.rk blk
    doutValid := true }

section bodies

variable {s : State} {blk : Block}

/-- ENC raises nothing past its checks. -/
theorem bodyEnc_eq : bodyEnc blk s = .ok (encDone blk s) := by
  unfold bodyEnc encDone
  cases hm : s.params.arxMode with
  | history => rw [encLoop_history 20 (by exact hm)]; rfl
  | stateless => rw [encLoop_stateless 20 (by exact hm)]; rfl

/-- A pop finds a record below `SP` (rule R165, log 12). -/
theorem sp_le_of_f1Inv_ok {v k : Lane} {r : Option Lane × State} (hm : s.params.arxMode = .history)
    (h : f1Inv v k s = .ok r) : s.sp ≤ s.hist.length := by
  by_contra hlt
  have hnone : s.hist[s.sp - 1]? = none := List.getElem?_eq_none (by omega)
  have h0 : s.sp ≠ 0 := by omega
  simp [f1Inv, hm, histPop, h0, hnone] at h

/-- So does a decrypt round that raises nothing. -/
theorem sp_le_of_decRound_ok {i : Nat} {t : State} (hm : s.params.arxMode = .history) (h : decRound i s = .ok t) :
    s.sp ≤ s.hist.length := by
  unfold decRound at h
  dsimp only at h
  split at h
  case h_1 => cases h
  case h_2 hpop => exact sp_le_of_f1Inv_ok hm hpop

/-- The 20 rounds of a DEC raise nothing exactly when the records are accepted. -/
theorem decLoop_ok_iff : (∃ t, decLoop 20 (loadLanes blk s) = .ok t) ↔ DecAccepts blk s := by
  cases hm : s.params.arxMode with
  | stateless =>
    have hno : s.params.arxMode ≠ .history := by simp [hm]
    exact iff_of_true ⟨_, decLoop_stateless 20 (by exact hm)⟩ fun h => absurd h hno
  | history =>
    constructor
    · rintro ⟨t, ht⟩ -
      obtain ⟨u, hu, -⟩ := decLoop_succ_ok ht
      have hle : s.sp ≤ s.hist.length := sp_le_of_decRound_ok (s := loadLanes blk s) hm hu
      exact ⟨hle, (decLoop_history (s := loadLanes blk s) 20 hm hle).1 ⟨t, ht⟩⟩
    · intro h
      obtain ⟨hle, hpops⟩ := h hm
      exact (decLoop_history (s := loadLanes blk s) 20 hm hle).2 hpops

/-- A DEC whose records are accepted (rules R205, R235). -/
theorem bodyDec_ok (h : DecAccepts blk s) : bodyDec blk s = .ok (decDone blk s) := by
  obtain ⟨t, ht⟩ := decLoop_ok_iff.2 h
  obtain ⟨e, hhist, hstateless⟩ := decLoop_ok ht
  rw [bodyDec, ht]
  dsimp only
  rw [e, decDone]
  cases hm : s.params.arxMode with
  | history =>
    have hsp : t.sp = s.sp - 40 := Nat.eq_sub_of_add_eq (hhist hm)
    simp only [dropPopped, loadLanes_params, hm, hsp]
    rfl
  | stateless =>
    have hsp : t.sp = s.sp := hstateless hm
    simp only [dropPopped, loadLanes_params, hm, hsp]
    rfl

/-- A DEC whose records are not accepted (rules R165, R207). -/
theorem bodyDec_error (h : ¬ DecAccepts blk s) : bodyDec blk s = .error .nohist := by
  cases hd : decLoop 20 (loadLanes blk s) with
  | ok t => exact absurd (decLoop_ok_iff.1 ⟨t, hd⟩) h
  | error e =>
    obtain ⟨rfl, -⟩ := decLoop_error hd
    rw [bodyDec, hd]

end bodies

end Sys2Proof.Machine
end

section
/-! SUPPORT. What a command does not read (rules R21, R92): two states that differ only there, and how the next states
then differ. -/

namespace Sys2Proof.Machine

/-! ### The ports -/

section ports

variable {i : Instr} {s : State} {p : Ports}

/-- A body whose operands are the same does not look at the ports. -/
theorem bodyOf_setPorts (hop : bodyOf i (setPorts p s) = bodyOf i s) (u : State) :
    bodyOf i (setPorts p s) (setPorts p u) = mapOk p (bodyOf i s u) := by
  rw [hop]
  cases i with
  | nop => rfl
  | keygen => rfl
  | enc => exact bodyEnc_setPorts p _ u
  | dec => exact bodyDec_setPorts p _ u
  | rdrk idx => exact bodyRdrk_setPorts p idx u
  | wrrk idx => exact bodyWrrk_setPorts p idx _ u
  | clrh => exact bodyClrh_setPorts p u
  | illegal w => rfl

/-- A command whose operands are the same does not look at the ports. -/
theorem exec_setPorts (hop : bodyOf i (setPorts p s) = bodyOf i s) :
    exec i (setPorts p s) = onNext (setPorts p) (exec i s) := by
  have hbegin : beginCommand (setPorts p s) = setPorts p (beginCommand s) := rfl
  rw [exec_eq_transact, exec_eq_transact, transact, transact, check_setPorts, hbegin,
    bodyOf_setPorts hop]
  cases check i s with
  | some e => rfl
  | none => cases bodyOf i s (beginCommand s) <;> rfl

/-- The same for a change `f` of the ports, which the command itself leaves alone. -/
theorem exec_changePorts {f : Ports → Ports} (hop : bodyOf i (setPorts (f s.ports) s) = bodyOf i s) :
    exec i { s with ports := f s.ports } = onNext (fun t => { t with ports := f t.ports }) (exec i s) := by
  obtain ⟨t, ht⟩ := exec_next i s
  refine (exec_setPorts hop).trans ?_
  rw [ht, ← (exec_same ht).ports]
  rfl

end ports

/-- Settles O30: the body of a command has `key_in` as its operand for KEYGEN only, and `din` for ENC, DEC and WRRK,
there its low half. -/
theorem unusedOperandsIgnored : Obligations.UnusedOperandsIgnored := by
  refine ⟨fun i s k hk => exec_changePorts (f := fun io => { io with keyIn := k }) ?_,
    fun i s d he hd hlow => exec_changePorts (f := fun io => { io with din := d }) ?_⟩
  · cases i with
    | keygen => exact absurd rfl hk
    | _ => rfl
  · cases i with
    | enc => exact absurd rfl he
    | dec => exact absurd rfl hd
    | wrrk idx => exact congrArg (bodyWrrk idx) (hlow ⟨idx, rfl⟩)
    | _ => rfl

/-! ### Two states that run the same command -/

/-- Two bodies end with the same error, or in states that are related once the command is complete. -/
def BodiesRelated (Q : State → State → Prop) : Except ErrCode State → Except ErrCode State → Prop
  | .ok t, .ok t' => Q (complete t) (complete t')
  | .error e, .error e' => e = e'
  | _, _ => False

section related

variable {Q : State → State → Prop} {i : Instr} {s s' t u u' : State}

/-- The next states are related when the checks agree, and the errors and the bodies lead to related states. -/
theorem exec_related (h : exec i s = .next t) (hc : check i s' = check i s)
    (hr : ∀ e, Q (raise e s) (raise e s'))
    (hb : check i s = none → BodiesRelated Q (bodyOf i s (beginCommand s)) (bodyOf i s' (beginCommand s'))) :
    ∃ t', exec i s' = .next t' ∧ Q t t' := by
  rcases exec_cases i s with ⟨e, hs, he⟩ | ⟨e, hs, hbe, he⟩ | ⟨u, hs, hbu, he⟩ <;> cases he.symm.trans h
  · exact ⟨_, exec_checkError (hc.trans hs), hr e⟩
  · have hb := hb hs
    rw [hbe] at hb
    cases hb' : bodyOf i s' (beginCommand s') with
    | ok u' => rw [hb'] at hb; exact hb.elim
    | error e' =>
      rw [hb'] at hb
      cases hb
      exact ⟨_, exec_bodyError (hc.trans hs) hb', hr e⟩
  · have hb := hb hs
    rw [hbu] at hb
    cases hb' : bodyOf i s' (beginCommand s') with
    | ok u' => rw [hb'] at hb; exact ⟨_, exec_ok (hc.trans hs) hb', hb⟩
    | error e' => rw [hb'] at hb; exact hb.elim

theorem bodiesRelated_enc {b : Block} (h : Q (complete (encDone b u)) (complete (encDone b u'))) :
    BodiesRelated Q (bodyEnc b u) (bodyEnc b u') := by
  rw [bodyEnc_eq, bodyEnc_eq]
  exact h

theorem bodiesRelated_dec {b : Block} (ha : DecAccepts b u' ↔ DecAccepts b u)
    (h : DecAccepts b u → Q (complete (decDone b u)) (complete (decDone b u'))) :
    BodiesRelated Q (bodyDec b u) (bodyDec b u') := by
  by_cases hu : DecAccepts b u
  · rw [bodyDec_ok hu, bodyDec_ok (ha.2 hu)]
    exact h hu
  · rw [bodyDec_error hu, bodyDec_error (mt ha.1 hu)]
    rfl

theorem bodiesRelated_rdrk {idx : BitVec 5}
    (h : ∀ n, rkIndex idx = some n → Q (complete { u with dout := zext64 (rkRead u n), doutValid := true })
      (complete { u' with dout := zext64 (rkRead u' n), doutValid := true })) :
    BodiesRelated Q (bodyRdrk idx u) (bodyRdrk idx u') := by
  unfold bodyRdrk
  cases hi : rkIndex idx with
  | some n => exact h n hi
  | none => rfl

theorem bodiesRelated_wrrk {idx : BitVec 5} {v : Word32}
    (h : ∀ n, Q (complete (rkWrite n v u)) (complete (rkWrite n v u'))) :
    BodiesRelated Q (bodyWrrk idx v u) (bodyWrrk idx v u') := by
  unfold bodyWrrk
  cases rkIndex idx with
  | some n => exact h n
  | none => rfl

theorem bodiesRelated_clrh (hp : u'.params = u.params)
    (hh : Q (complete { u with hist := [], sp := 0 }) (complete { u' with hist := [], sp := 0 }))
    (hs : u.params.arxMode = .stateless → Q (complete u) (complete u')) :
    BodiesRelated Q (bodyClrh u) (bodyClrh u') := by
  have hm' : u'.params.arxMode = u.params.arxMode := congrArg Params.arxMode hp
  unfold bodyClrh
  rw [hm']
  cases hm : u.params.arxMode with
  | history => exact hh
  | stateless => exact hs hm

end related

/-! ### Registers without a value -/

/-- The lanes, `KS`, `RND`, `SPSAVE` and `MISM` at acceptance have no effect (rules R23, R24, R30, R42), and `DOUT`
has none but on itself, where the command does not write it (rule R25). -/
theorem exec_ignores_work_and_dout {i : Instr} {s t : State} (h : exec i s = .next t)
    (l : Lanes) (k : Key) (r : BitVec 5) (p : Nat) (m : Bool) (d : Block) :
    exec i { s with lanes := l, ks := k, rnd := r, spSave := p, mism := m, dout := d } =
      .next { t with dout := if t.doutValid then t.dout else d } := by
  suffices hrel : ∃ t',
      exec i { s with lanes := l, ks := k, rnd := r, spSave := p, mism := m, dout := d } = .next t' ∧
      t' = { t with dout := if t.doutValid then t.dout else d } by
    obtain ⟨_, ht', rfl⟩ := hrel
    exact ht'
  refine exec_related (Q := fun t t' => t' = { t with dout := if t.doutValid then t.dout else d }) h rfl
    (fun _ => rfl) fun _ => ?_
  cases i with
  | nop => rfl
  | keygen => rfl
  | enc => exact bodiesRelated_enc rfl
  | dec => exact bodiesRelated_dec Iff.rfl fun _ => rfl
  | rdrk idx => exact bodiesRelated_rdrk fun _ _ => rfl
  | wrrk idx => exact bodiesRelated_wrrk fun _ => rfl
  | clrh => exact bodiesRelated_clrh rfl rfl fun _ => rfl
  | illegal w => rfl

/-- A command that leaves no result leaves `DOUT` as it was (rule R25). -/
theorem exec_keeps_dout {i : Instr} {s t : State} (h : exec i s = .next t) :
    { t with dout := if t.doutValid then t.dout else s.dout } = t := by
  obtain ⟨-, hdout⟩ := resultValidity i s t h
  cases hv : t.doutValid with
  | true => simp [← hv]
  | false => simp [← hv, ← hdout hv]

/-- Two files of round keys agree on the entries that have been written. -/
def AgreeOn (v : Vector Bool 20) (rk rk' : RoundKeys) : Prop := ∀ n : Fin 20, v[n] = true → rk'[n] = rk[n]

/-- Files that agree on all entries are equal. -/
theorem AgreeOn.eq {s : State} {rk : RoundKeys} (h : AgreeOn s.rkv s.rk rk) (hk : keyOk s = true) : rk = s.rk :=
  Vector.ext fun n hn => h ⟨n, hn⟩ ((keyOk_iff s).1 hk ⟨n, hn⟩)

/-- Writing the same entry in both keeps the agreement, there too (rule R62). -/
theorem AgreeOn.set {v : Vector Bool 20} {rk rk' : RoundKeys} (h : AgreeOn v rk rk') (i : Fin 20) (x : Word32) :
    AgreeOn (v.set i true) (rk.set i x) (rk'.set i x) := by
  intro n hn
  by_cases hi : i.val = n.val
  · simp [hi]
  · simp only [Fin.getElem_fin, Vector.getElem_set, if_neg hi] at hn ⊢
    exact h n hn

/-- The entries of `RK` whose `RKV` is 0 have no effect but on such entries (rules R26, R27, R231). -/
theorem exec_ignores_unwritten_rk {i : Instr} {s t : State} {rk : RoundKeys} (h : exec i s = .next t)
    (hrk : AgreeOn s.rkv s.rk rk) :
    ∃ t', exec i { s with rk := rk } = .next t' ∧
      ∃ rk', t' = { t with rk := rk' } ∧ AgreeOn t.rkv t.rk rk' := by
  refine exec_related h (Q := fun t t' => ∃ rk', t' = { t with rk := rk' } ∧ AgreeOn t.rkv t.rk rk') rfl
    (fun _ => ⟨rk, rfl, hrk⟩) fun hc => ?_
  obtain ⟨-, -, hkeys, -⟩ := check_eq_none.1 hc
  cases i with
  | nop => exact ⟨rk, rfl, hrk⟩
  | keygen => exact ⟨_, rfl, fun _ _ => rfl⟩
  | enc =>
    cases hrk.eq hkeys
    exact bodiesRelated_enc ⟨_, rfl, fun _ _ => rfl⟩
  | dec =>
    cases hrk.eq hkeys
    exact bodiesRelated_dec Iff.rfl fun _ => ⟨_, rfl, fun _ _ => rfl⟩
  | rdrk idx =>
    refine bodiesRelated_rdrk fun n hn => ⟨rk, ?_, hrk⟩
    rw [keysWritten, hn] at hkeys
    have hread : rkRead (beginCommand { s with rk := rk }) n = rkRead (beginCommand s) n := hrk n hkeys
    rw [hread]
    rfl
  | wrrk idx => exact bodiesRelated_wrrk fun n => ⟨_, rfl, hrk.set n _⟩
  | clrh => exact bodiesRelated_clrh rfl ⟨rk, rfl, hrk⟩ fun _ => ⟨rk, rfl, hrk⟩
  | illegal w => rfl

/-- What a DEC accepts does not depend on the entries of `HIST` at `SP` and above (rule R28). -/
theorem decAccepts_of_take {b : Block} {s : State} {h : List HistRec} (ht : h.take s.sp = s.hist.take s.sp) :
    DecAccepts b { s with hist := h } ↔ DecAccepts b s := by
  have hlen : s.sp ≤ h.length ↔ s.sp ≤ s.hist.length := by
    have := congrArg List.length ht
    simp only [List.length_take] at this
    omega
  have htop : topXs h s.sp = topXs s.hist s.sp := by rw [topXs, ht, topXs]
  simp only [DecAccepts, hlen, htop]

/-- The entries of `HIST` at `SP` and above have no effect but on such entries (rules R28, R163, R165). -/
theorem exec_ignores_hist_above_sp {i : Instr} {s t : State} {h : List HistRec} (he : exec i s = .next t)
    (ht : h.take s.sp = s.hist.take s.sp) :
    ∃ t', exec i { s with hist := h } = .next t' ∧
      ∃ h', t' = { t with hist := h' } ∧ h'.take t.sp = t.hist.take t.sp := by
  refine exec_related he (Q := fun t t' => ∃ h', t' = { t with hist := h' } ∧ h'.take t.sp = t.hist.take t.sp) rfl
    (fun _ => ⟨h, rfl, ht⟩) fun _ => ?_
  cases i with
  | nop => exact ⟨h, rfl, ht⟩
  | keygen => exact ⟨h, rfl, ht⟩
  | enc =>
    refine bodiesRelated_enc ⟨_, rfl, ?_⟩
    cases hm : s.params.arxMode with
    | history => simp [encDone, hm, ht]
    | stateless => simpa [encDone, hm] using ht
  | dec =>
    refine bodiesRelated_dec (decAccepts_of_take ht) fun _ => ⟨_, rfl, ?_⟩
    cases hm : s.params.arxMode with
    | history =>
      have := congrArg (List.take (s.sp - 40)) ht
      simpa [decDone, hm, List.take_take] using this
    | stateless => simpa [decDone, hm] using ht
  | rdrk idx => exact bodiesRelated_rdrk fun _ _ => ⟨h, rfl, ht⟩
  | wrrk idx => exact bodiesRelated_wrrk fun _ => ⟨h, rfl, ht⟩
  | clrh => exact bodiesRelated_clrh rfl ⟨[], rfl, rfl⟩ fun _ => ⟨h, rfl, ht⟩
  | illegal w => rfl

/-- Settles O31: no check and no body reads a register without a value, ENC and DEC having all round keys past their
checks. -/
theorem noValueIsRead : Obligations.NoValueIsRead := by
  refine ⟨fun i s l k r p m => ?_, fun i s t rk h hrk => ?_, fun i s t h he ht => ?_, fun i s t d h => ?_⟩
  · obtain ⟨t, ht⟩ := exec_next i s
    rw [ht, ← exec_keeps_dout ht]
    exact exec_ignores_work_and_dout ht l k r p m s.dout
  · obtain ⟨_, he', rk', rfl, hrk'⟩ := exec_ignores_unwritten_rk h hrk
    exact ⟨rk', he', hrk'⟩
  · obtain ⟨_, he', h', rfl, ht'⟩ := exec_ignores_hist_above_sp he ht
    exact ⟨h', he', ht'⟩
  · exact exec_ignores_work_and_dout h s.lanes s.ks s.rnd s.spSave s.mism d

end Sys2Proof.Machine
end

section
/-! SUPPORT. The command words (rules R90 to R94, R239): a word is its opcode and its index, what the row of each opcode
decodes to, that encoding and decoding undo each other, which words are illegal, and which select a row. -/

namespace Sys2Proof

open Sys2Proof.Laws Sys2Proof.Machine

variable {w : BitVec 8} {i : Instr}

/-! ### The two fields -/

/-- A command word is its opcode and its index (rule R90). -/
theorem opField_append_idxField (w : BitVec 8) : opField w ++ idxField w = w := by
  rw [BitVec.extractLsb'_append_extractLsb'_eq_extractLsb' (by rfl)]
  exact BitVec.extractLsb'_eq_self

/-- The opcode of a word put together from its fields. -/
theorem opField_append (op : BitVec 3) (idx : BitVec 5) : opField (op ++ idx) = op :=
  BitVec.extractLsb'_append_eq_left

/-- The index of a word put together from its fields. -/
theorem idxField_append (op : BitVec 3) (idx : BitVec 5) : idxField (op ++ idx) = idx :=
  BitVec.extractLsb'_append_eq_right

/-- The eight opcodes. -/
theorem opcode_cases (op : BitVec 3) :
    op = 0 ∨ op = 1 ∨ op = 2 ∨ op = 3 ∨ op = 4 ∨ op = 5 ∨ op = 6 ∨ op = 7 := by
  revert op
  decide

/-! ### The verdict of each opcode (rules R93, R94) -/

theorem verdict_of_op_zero (h : opField w = 0) : verdict w = formatN (idxField w) .nop := by rw [verdict, h]; rfl
theorem verdict_of_op_one (h : opField w = 1) : verdict w = formatN (idxField w) .keygen := by rw [verdict, h]; rfl
theorem verdict_of_op_two (h : opField w = 2) : verdict w = formatN (idxField w) .enc := by rw [verdict, h]; rfl
theorem verdict_of_op_three (h : opField w = 3) : verdict w = formatN (idxField w) .dec := by rw [verdict, h]; rfl
theorem verdict_of_op_four (h : opField w = 4) : verdict w = formatI (idxField w) (.rdrk (idxField w)) := by
  rw [verdict, h]; rfl
theorem verdict_of_op_five (h : opField w = 5) : verdict w = formatI (idxField w) (.wrrk (idxField w)) := by
  rw [verdict, h]; rfl
theorem verdict_of_op_six (h : opField w = 6) : verdict w = formatN (idxField w) .clrh := by rw [verdict, h]; rfl
theorem verdict_of_op_seven (h : opField w = 7) : verdict w = .error .reservedOpcode := by rw [verdict, h]; rfl

/-- A word of format N is its row's command when its index is 0, else illegal (rules R91, R94). -/
theorem decode_of_formatN (hv : verdict w = formatN (idxField w) i) :
    decode w = if idxField w = 0 then i else .illegal w := by
  rw [decode, hv]
  unfold formatN
  by_cases h : idxField w = 0
  · rw [if_pos h, if_pos h]
  · rw [if_neg h, if_neg h]

/-- A word of format I is its row's command when its index names a round key, else illegal (rules R91, R94). -/
theorem decode_of_formatI (hv : verdict w = formatI (idxField w) i) :
    decode w = if (idxField w).toNat < 20 then i else .illegal w := by
  rw [decode, hv]
  unfold formatI
  by_cases h : (idxField w).toNat < 20
  · rw [if_pos h, if_pos h]
  · rw [if_neg h, if_neg h]

/-! ### What decoding makes of a word -/

/-- An illegal word is kept whole, any other is the legal command whose word it is (rules R93, R94). -/
def IsDecoded (w : BitVec 8) (i : Instr) : Prop :=
  (illegalWord w = true ∧ i = .illegal w) ∨ (illegalWord w = false ∧ legal i = true ∧ encode i = w)

/-- A row of format N decodes as it should. -/
theorem isDecoded_of_formatN {op : BitVec 3} (hop : opField w = op) (hv : verdict w = formatN (idxField w) i)
    (hw : illegalWord w = decide (idxField w ≠ 0)) (hl : legal i = true) (he : encode i = op ++ 0#5) :
    IsDecoded w (decode w) := by
  rw [decode_of_formatN hv]
  by_cases h : idxField w = 0
  · rw [if_pos h]
    refine .inr ⟨hw.trans (decide_eq_false (not_not.2 h)), hl, ?_⟩
    calc encode i = opField w ++ idxField w := by rw [he, hop, h]; rfl
      _ = w := opField_append_idxField w
  · rw [if_neg h]
    exact .inl ⟨hw.trans (decide_eq_true h), rfl⟩

/-- A row of format I decodes as it should. -/
theorem isDecoded_of_formatI {op : BitVec 3} (hop : opField w = op) (hv : verdict w = formatI (idxField w) i)
    (hw : illegalWord w = decide (20 ≤ (idxField w).toNat)) (hl : legal i = decide ((idxField w).toNat < 20))
    (he : encode i = op ++ idxField w) : IsDecoded w (decode w) := by
  rw [decode_of_formatI hv]
  by_cases h : (idxField w).toNat < 20
  · rw [if_pos h]
    refine .inr ⟨hw.trans (decide_eq_false (not_le.2 h)), hl.trans (decide_eq_true h), ?_⟩
    rw [he, ← hop, opField_append_idxField]
  · rw [if_neg h]
    exact .inl ⟨hw.trans (decide_eq_true (not_lt.1 h)), rfl⟩

/-- Everything `decode` can answer, by the row of the word's opcode. -/
theorem isDecoded_decode (w : BitVec 8) : IsDecoded w (decode w) := by
  rcases opcode_cases (opField w) with h | h | h | h | h | h | h | h
  · exact isDecoded_of_formatN h (verdict_of_op_zero h) (by simp [illegalWord, h]) rfl rfl
  · exact isDecoded_of_formatN h (verdict_of_op_one h) (by simp [illegalWord, h]) rfl rfl
  · exact isDecoded_of_formatN h (verdict_of_op_two h) (by simp [illegalWord, h]) rfl rfl
  · exact isDecoded_of_formatN h (verdict_of_op_three h) (by simp [illegalWord, h]) rfl rfl
  · exact isDecoded_of_formatI h (verdict_of_op_four h) (by simp [illegalWord, h]) rfl rfl
  · exact isDecoded_of_formatI h (verdict_of_op_five h) (by simp [illegalWord, h]) rfl rfl
  · exact isDecoded_of_formatN h (verdict_of_op_six h) (by simp [illegalWord, h]) rfl rfl
  · exact .inl ⟨by simp [illegalWord, h], by rw [decode, verdict_of_op_seven h]⟩

/-- An illegal word is kept whole (rules R94, R239). -/
theorem decode_of_illegalWord (h : illegalWord w = true) : decode w = .illegal w := by
  obtain ⟨-, hd⟩ | ⟨hn, -, -⟩ := isDecoded_decode w
  · exact hd
  · exact nomatch h.symm.trans hn

/-- The words that are not illegal are the legal ones (rule R94). -/
theorem legal_decode (w : BitVec 8) : legal (decode w) = !illegalWord w := by
  obtain ⟨hw, hd⟩ | ⟨hw, hl, -⟩ := isDecoded_decode w
  · rw [hd, hw]
    rfl
  · rw [hl, hw]
    rfl

/-- A legal command is well-formed. -/
theorem wellFormed_of_legal (h : legal i = true) : wellFormed i = true := by
  cases i with
  | illegal w => exact nomatch h
  | _ => exact h

/-! ### Encoding and decoding undo each other -/

/-- A command of format N is decoded from its own word, given the fields of that word and the row of its opcode. -/
theorem decode_encode_of_formatN {op : BitVec 3} (hf : opField (encode i) = op ∧ idxField (encode i) = 0)
    (hv : opField (encode i) = op → verdict (encode i) = formatN (idxField (encode i)) i) : decode (encode i) = i := by
  obtain ⟨hop, hidx⟩ := hf
  rw [decode_of_formatN (hv hop), if_pos hidx]

/-- Settles O1: the fields of a command's word lead to the row the command came from. -/
theorem decodeOfEncode : Obligations.DecodeOfEncode := by
  intro i hi
  cases i with
  | nop => exact decode_encode_of_formatN (OpcodeField.nop hi) verdict_of_op_zero
  | keygen => exact decode_encode_of_formatN (OpcodeField.keygen hi) verdict_of_op_one
  | enc => exact decode_encode_of_formatN (OpcodeField.enc hi) verdict_of_op_two
  | dec => exact decode_encode_of_formatN (OpcodeField.dec hi) verdict_of_op_three
  | rdrk idx =>
    obtain ⟨hop, hidx⟩ := OpcodeField.rdrk idx hi
    rw [decode_of_formatI (verdict_of_op_four hop), hidx, if_pos (of_decide_eq_true hi)]
  | wrrk idx =>
    obtain ⟨hop, hidx⟩ := OpcodeField.wrrk idx hi
    rw [decode_of_formatI (verdict_of_op_five hop), hidx, if_pos (of_decide_eq_true hi)]
  | clrh => exact decode_encode_of_formatN (OpcodeField.clrh hi) verdict_of_op_six
  | illegal w => exact decode_of_illegalWord hi

/-- Settles O2: an illegal word is kept whole, and any other is the word of the legal command it decodes to. -/
theorem encodeOfDecode : Obligations.EncodeOfDecode := by
  intro w
  obtain ⟨hw, hd⟩ | ⟨-, hl, he⟩ := isDecoded_decode w
  · rw [hd]
    exact ⟨hw, rfl⟩
  · exact ⟨wellFormed_of_legal hl, he⟩

/-- A well-formed command has one word only. -/
theorem decode_eq_iff (hi : wellFormed i = true) : decode w = i ↔ w = encode i := by
  constructor
  · rintro rfl
    exact (encodeOfDecode w).2.symm
  · rintro rfl
    exact decodeOfEncode i hi

/-- Settles O5: each of the words is that of the command named, or illegal. -/
theorem specWordsDecode : Obligations.SpecWordsDecode :=
  ⟨decodeOfEncode .nop rfl, decodeOfEncode .keygen rfl, decodeOfEncode .enc rfl, decodeOfEncode .dec rfl,
    decodeOfEncode (.rdrk 3) rfl, decodeOfEncode (.rdrk 19) rfl, decode_of_illegalWord rfl, decodeOfEncode (.wrrk 3) rfl,
    decode_of_illegalWord rfl, decodeOfEncode .clrh rfl, decode_of_illegalWord rfl, decode_of_illegalWord rfl⟩

/-! ### Illegal words -/

/-- The three classes of illegal words (rule R94). -/
theorem illegalWord_iff (w : BitVec 8) : illegalWord w = true ↔
    opField w = 7 ∨ ((opField w).toNat ∈ [0, 1, 2, 3, 6] ∧ idxField w ≠ 0) ∨
      ((opField w).toNat ∈ [4, 5] ∧ 20 ≤ (idxField w).toNat) := by
  unfold illegalWord
  generalize opField w = op
  rcases opcode_cases op with rfl | rfl | rfl | rfl | rfl | rfl | rfl | rfl <;> simp

/-- How many words are illegal (rule R94). -/
theorem countP_illegalWord : ((List.range 256).countP fun n => illegalWord (BitVec.ofNat 8 n)) = 211 := by
  decide +kernel

/-- The legal words are the rest of the 256 (rule R94). -/
theorem countP_legal : ((List.range 256).countP fun n => legal (decode (BitVec.ofNat 8 n))) = 45 := by
  have hsum := (List.range 256).length_eq_countP_add_countP fun n => illegalWord (BitVec.ofNat 8 n)
  rw [List.length_range, countP_illegalWord] at hsum
  simp only [Bool.not_eq_true, Bool.decide_eq_false] at hsum
  simp only [legal_decode]
  omega

/-- Settles O18: with `TBLERR = 0` a command that is not legal is refused at acceptance with ILLEGAL. -/
theorem illegalRuns : Obligations.IllegalRuns := by
  intro i s hl ht
  have hc : check i s = some .illegal := by simp [check, ht, hl]
  exact ⟨_, exec_checkError hc, endsWith_raise .illegal s⟩

/-- Settles O4, from the counts, the classes of illegal words, and what a command that is not legal does. -/
theorem decodeVerdicts : Obligations.DecodeVerdicts := by
  refine ⟨countP_legal, countP_illegalWord, fun idx h => ⟨?_, ?_⟩, illegalWord_iff, fun w s hw ht => ?_⟩
  · exact (congrArg legal (decodeOfEncode (.rdrk idx) (decide_eq_true h))).trans (decide_eq_true h)
  · exact (congrArg legal (decodeOfEncode (.wrrk idx) (decide_eq_true h))).trans (decide_eq_true h)
  · rw [decode_of_illegalWord hw]
    exact illegalRuns (.illegal w) s rfl ht

/-! ### Which words select a row of the opcode map -/

/-- Which commands have the mnemonic of a row. -/
theorem mnemonic_eq_iff (i : Instr) :
    (mnemonic i = "NOP" ↔ i = .nop) ∧ (mnemonic i = "KEYGEN" ↔ i = .keygen) ∧ (mnemonic i = "ENC" ↔ i = .enc) ∧
    (mnemonic i = "DEC" ↔ i = .dec) ∧ (mnemonic i = "RDRK" ↔ ∃ idx, i = .rdrk idx) ∧
    (mnemonic i = "WRRK" ↔ ∃ idx, i = .wrrk idx) ∧ (mnemonic i = "CLRH" ↔ i = .clrh) := by
  cases i <;> simp [mnemonic]

/-- A legal command has the mnemonic of a row (rule R93). -/
theorem exists_row_of_legal (h : legal i = true) : ∃ r ∈ opcodeMap, mnemonic i = r.mnemonic := by
  cases i with
  | illegal w => exact nomatch h
  | _ => simp [opcodeMap, mnemonic]

/-- The mask of format I keeps the opcode (rule R93). -/
theorem and_opMask (w : BitVec 8) : w &&& 0xE0 = opField w ++ 0#5 := by
  revert w
  decide

/-- A row of format N is selected by its command's word only (rule R93). -/
theorem selects_formatN (m : String) (hi : wellFormed i = true) :
    selects w ⟨m, encode i, 0xFF, 32⟩ = true ↔ decode w = i := by
  have hmask : w &&& 0xFF = w := BitVec.and_allOnes
  have hidx : (idxField w).toNat < 32 := (idxField w).isLt
  simp only [selects, hmask, hidx, decode_eq_iff hi, decide_true, Bool.and_true, decide_eq_true_iff]

/-- A row of format I, with the commands `c idx`, is selected by the words of those commands (rule R93). -/
theorem selects_formatI {op : BitVec 3} {c : BitVec 5 → Instr} (m : String) (he : ∀ idx, encode (c idx) = op ++ idx)
    (hc : ∀ idx, wellFormed (c idx) = decide (idx.toNat < 20)) :
    selects w ⟨m, op ++ 0#5, 0xE0, 20⟩ = true ↔ ∃ idx, decode w = c idx := by
  have hmask : w &&& 0xE0 = op ++ 0#5 ↔ opField w = op := by
    rw [and_opMask]
    exact ⟨fun h => (opField_append _ _).symm.trans ((congrArg opField h).trans (opField_append _ _)),
      congrArg (· ++ 0#5)⟩
  simp only [selects, Bool.and_eq_true, decide_eq_true_iff, hmask]
  constructor
  · rintro ⟨hop, hidx⟩
    refine ⟨idxField w, (decode_eq_iff ((hc _).trans (decide_eq_true hidx))).2 ?_⟩
    rw [he, ← hop, opField_append_idxField]
  · rintro ⟨idx, hd⟩
    obtain ⟨hwf, hw⟩ := encodeOfDecode w
    rw [hd, hc, decide_eq_true_iff] at hwf
    rw [hd, he] at hw
    rw [← hw, opField_append, idxField_append]
    exact ⟨rfl, hwf⟩

/-- A word selects the row of the command it decodes to (rule R93). -/
theorem selects_iff_mnemonic (w : BitVec 8) {r : OpcodeRow} (hr : r ∈ opcodeMap) :
    selects w r = true ↔ mnemonic (decode w) = r.mnemonic := by
  obtain ⟨hnop, hkeygen, henc, hdec, hrdrk, hwrrk, hclrh⟩ := mnemonic_eq_iff (decode w)
  simp only [opcodeMap, List.mem_cons, List.not_mem_nil, or_false] at hr
  rcases hr with rfl | rfl | rfl | rfl | rfl | rfl | rfl
  · exact (selects_formatN _ rfl).trans hnop.symm
  · exact (selects_formatN _ rfl).trans hkeygen.symm
  · exact (selects_formatN _ rfl).trans henc.symm
  · exact (selects_formatN _ rfl).trans hdec.symm
  · exact (selects_formatI _ (fun _ => rfl) fun _ => rfl).trans hrdrk.symm
  · exact (selects_formatI _ (fun _ => rfl) fun _ => rfl).trans hwrrk.symm
  · exact (selects_formatN _ rfl).trans hclrh.symm

/-- Settles O3: a word selects the row of its command, every legal command has a row, and `illegal` has none. -/
theorem opcodeMapSelects : Obligations.OpcodeMapSelects := by
  refine fun w => ⟨fun r hr => selects_iff_mnemonic w hr, fun hnone => ?_, fun hd r hr => ?_⟩
  · obtain ⟨-, hd⟩ | ⟨-, hl, -⟩ := isDecoded_decode w
    · exact hd
    · obtain ⟨r, hr, hm⟩ := exists_row_of_legal hl
      exact nomatch (hnone r hr).symm.trans ((selects_iff_mnemonic w hr).2 hm)
  · have hm : ∀ r ∈ opcodeMap, mnemonic (.illegal w) ≠ r.mnemonic := by simp [opcodeMap, mnemonic]
    exact Bool.eq_false_iff.2 fun hs => hm r hr (hd ▸ (selects_iff_mnemonic w hr).1 hs)

end Sys2Proof
end

section
/-! SUPPORT. When a command word is looked at (rules R98, R99): what acceptance shows, what a busy engine ignores, and that
every clock edge of the round-level view keeps the invariant. -/

namespace Sys2Proof.Machine

variable {s : State}

/-- Settles O50: acceptance clears the flags, leaves `IDLE` and otherwise writes work registers only. -/
theorem acceptanceClearsFlags : Obligations.AcceptanceClearsFlags := by
  intro i s
  obtain ⟨_, _, _, _, _, _, e, hne⟩ := acceptCommand_frame i s
  rw [e]
  exact ⟨rfl, rfl, rfl, hne, rfl, rfl, ⟨rfl, rfl⟩, ⟨rfl, rfl⟩, ⟨rfl, rfl, rfl, rfl⟩⟩

/-- A step of a busy engine (rules R99, R211). -/
theorem step_busy (hr : s.ports.rst = false) (hf : s.fsm ≠ .idle) : step s = .next (advancePorts (tick s)) := by
  rcases step_cases s with ⟨hr', -⟩ | ⟨-, -, e⟩ | ⟨-, hi, -⟩ | ⟨-, hi, -⟩
  · exact nomatch hr.symm.trans hr'
  · exact e
  · exact absurd hi hf
  · exact absurd hi hf

/-- The sample on the ports is used up, whatever it is (log 7). -/
theorem advancePorts_setPorts (p : Ports) (s : State) : advancePorts (setPorts p s) = advancePorts s := by
  unfold advancePorts setPorts
  cases s.pending <;> rfl

/-- Settles O8: a busy engine takes an iteration, and no iteration looks at the ports. -/
theorem busyIgnoresStart : Obligations.BusyIgnoresStart := by
  intro s p hr hp hf
  have hs : step s = .next (advancePorts (tick s)) := step_busy hr hf
  refine ⟨hs, ?_⟩
  calc step (setPorts p s) = .next (advancePorts (tick (setPorts p s))) := step_busy hp hf
    _ = .next (advancePorts (tick s)) := by rw [tick_setPorts, advancePorts_setPorts]
    _ = step s := hs.symm

/-- Everything a clock edge of the round-level view can do (rules R98, R99, R269, R300). -/
theorem edge_cases (s : State) :
    (s.ports.rst = true ∧ edge s = advancePorts (resetEngine s)) ∨
    (s.ports.rst = false ∧ s.fsm ≠ .idle ∧ edge s = advancePorts (tick s)) ∨
    (s.ports.rst = false ∧ s.fsm = .idle ∧ s.ports.start = true ∧
      edge s = advancePorts (acceptCommand (decode s.ports.cmd) s)) ∨
    (s.ports.rst = false ∧ s.fsm = .idle ∧ s.ports.start = false ∧ edge s = advancePorts s) := by
  unfold edge busy
  cases hr : s.ports.rst with
  | true => simp
  | false =>
    by_cases hf : s.fsm = .idle
    · cases s.ports.start <;> simp [hf]
    · simp [hf]

/-- Settles O58, by the cases of an edge: a reset, an iteration, an acceptance, or nothing to do. -/
theorem edgeKeepsInvariant : Obligations.EdgeKeepsInvariant := by
  intro s h
  rcases edge_cases s with ⟨-, e⟩ | ⟨-, -, e⟩ | ⟨-, hf, -, e⟩ | ⟨-, -, -, e⟩ <;> rw [e]
  · exact h.resetEngine.advancePorts
  · exact h.tick.advancePorts
  · exact (h.acceptCommand hf _).advancePorts
  · exact h.advancePorts

end Sys2Proof.Machine
end

section
/-! SUPPORT. The lookup layers (rules R126 to R131): nibble by nibble, bit by bit, and that they undo each other. -/

namespace Sys2Proof.Machine

/-- Settles O36: under TABLES_OK, (S1) and (S2) make the two substitution layers inverse, (P2) and (P1) the two gathers. -/
theorem layersInverse : Obligations.LayersInverse := by
  rintro t v ⟨s1, s2, p1, p2⟩
  exact ⟨mapNibbles_inverse s1 v, mapNibbles_inverse s2 v, gatherWord_inverse p2 v, gatherWord_inverse p1 v⟩

/-- The high nibble of a byte put together from two nibbles (rule R67). -/
theorem nibbleOf_one_append (a b : Nibble) : nibbleOf 1 (a ++ b) = a := BitVec.extractLsb'_append_eq_left

/-- The low nibble of a byte put together from two nibbles (rule R67). -/
theorem nibbleOf_zero_append (a b : Nibble) : nibbleOf 0 (a ++ b) = b := BitVec.extractLsb'_append_eq_right

/-- Settles O34: a substitution layer maps nibbles, `SubByte` puts two of them together, a permutation layer gathers bits. -/
theorem layerBits : Obligations.LayerBits := by
  refine ⟨fun t v j hj => ⟨?_, ?_⟩, fun t b => ⟨?_, ?_⟩, fun t w i hi => ⟨?_, ?_⟩⟩
  · exact nibbleOf_mapNibbles (sboxAt t) v j hj
  · exact nibbleOf_mapNibbles (invSboxAt t) v j hj
  · exact nibbleOf_one_append _ _
  · exact nibbleOf_zero_append _ _
  · exact getLsbD_gatherWord (permAt t) w i hi
  · exact getLsbD_gatherWord (invPermAt t) w i hi

end Sys2Proof.Machine
end

section
/-! SUPPORT. The key schedule (rules R140 to R148): where the bits go in each step of an iteration, that each step is
injective when `SBOX` is, and that the tables enter through `SBOX` alone. -/

namespace Sys2Proof.Machine

/-! ### What each step does -/

/-- Step 1 moves bit `j` to bit `(j + 113) mod 128` (rule R141). -/
theorem getLsbD_ksRotate (s : Key) {j : Nat} (hj : j < 128) : (ksRotate s).getLsbD ((j + 113) % 128) = s.getLsbD j := by
  rw [ksRotate, BitVec.getLsbD_rotateLeft_of_le (by decide)]
  by_cases hw : j < 15
  · have hi : (j + 113) % 128 = j + 113 := by omega
    have hlt : j + 113 < 128 := by omega
    simp [hi, hlt]
  · have hi : (j + 113) % 128 = j - 15 := by omega
    have hlt : j - 15 < 113 := by omega
    have hsrc : 128 - 113 + (j - 15) = j := by omega
    rw [hi, hsrc, decide_eq_true hlt, cond_true]

/-- Step 2 substitutes the top byte (rule R142). -/
theorem ksSubst_top (t : Tables) (s : Key) : (ksSubst t s).extractLsb' 120 8 = subByte t (s.extractLsb' 120 8) :=
  BitVec.extractLsb'_append_eq_left

/-- Step 2 keeps the other 120 bits (rule R142). -/
theorem ksSubst_rest (t : Tables) (s : Key) : (ksSubst t s).extractLsb' 0 120 = s.extractLsb' 0 120 :=
  BitVec.extractLsb'_append_eq_right

/-- Step 3 injects the round index into bits 14:10 (rule R143). -/
theorem ksCount_field (i : Nat) (s : Key) :
    (ksCount i s).extractLsb' 10 5 = s.extractLsb' 10 5 ^^^ BitVec.ofNat 5 i := by
  rw [ksCount, BitVec.extractLsb'_append_eq_of_le (le_refl 10)]
  exact BitVec.extractLsb'_append_eq_right

/-- Step 3 keeps bits 127:15 (rule R143). -/
theorem ksCount_high (i : Nat) (s : Key) : (ksCount i s).extractLsb' 15 113 = s.extractLsb' 15 113 := by
  rw [ksCount, BitVec.extractLsb'_append_eq_of_le (by decide : 10 ≤ 15)]
  exact BitVec.extractLsb'_append_eq_left

/-- Step 3 keeps bits 9:0 (rule R143). -/
theorem ksCount_low (i : Nat) (s : Key) : (ksCount i s).extractLsb' 0 10 = s.extractLsb' 0 10 :=
  BitVec.extractLsb'_append_eq_right

/-- Round key `i` of the schedule is that of iteration `i` (rule R146). -/
theorem getElem_keySchedule (t : Tables) (key : Key) {i : Nat} (hi : i < 20) :
    (keySchedule t key)[i] = (ksStep t (ksState t key i) i).2 := by
  rw [keySchedule, Vector.getElem_ofFn, roundKey]

/-- The iterations determine their states: any sequence of them from the master key is `ksState` (rules R140, R146). -/
theorem eq_ksState_of_chain {t : Tables} {key : Key} {st : Nat → Key} {n : Nat} (h0 : st 0 = key)
    (h : ∀ i < n, st (i + 1) = (ksStep t (st i) i).1) : st n = ksState t key n := by
  induction n with
  | zero => exact h0
  | succ n ih => rw [h n (by omega), ih fun i hi => h i (by omega), ksState]

/-- Settles O38, step by step; the sequence of states is `ksState` by induction on the iterations before round `i`. -/
theorem keyScheduleStep : Obligations.KeyScheduleStep := by
  refine ⟨fun s j hj => getLsbD_ksRotate s hj, fun t s => ⟨ksSubst_top t s, ksSubst_rest t s⟩,
    fun i s => ⟨ksCount_field i s, ksCount_high i s, ksCount_low i s⟩, fun t s i => ⟨rfl, rfl⟩, ?_⟩
  intro t key st h0 h i hi
  have hst : st i = ksState t key i := eq_ksState_of_chain h0 fun j hj => h j (by omega)
  rw [getElem_keySchedule t key hi, hst]

/-! ### An iteration is a bijection -/

/-- A value is determined by its upper and its lower part (rule R12). -/
theorem eq_of_extractLsb' {m n : Nat} {x y : BitVec (m + n)} (hhi : x.extractLsb' n m = y.extractLsb' n m)
    (hlo : x.extractLsb' 0 n = y.extractLsb' 0 n) : x = y := by
  rw [← BitVec.extractLsb'_append_extractLsb' (x := x), hhi, hlo, BitVec.extractLsb'_append_extractLsb']

/-- Step 1 loses no bit (rule R148). -/
theorem ksRotate_injective : Function.Injective ksRotate := by
  intro x y h
  apply BitVec.eq_of_getLsbD_eq
  intro j hj
  rw [← getLsbD_ksRotate x hj, h, getLsbD_ksRotate y hj]

/-- `SubByte` substitutes each nibble in its own place, so it is injective when `SBOX` is (rules R130, R148). -/
theorem subByte_injective {t : Tables} (ht : Function.Injective (sboxAt t)) : Function.Injective (subByte t) := by
  intro a b h
  have h1 : nibbleOf 1 a = nibbleOf 1 b := ht (by simpa only [subByte, nibbleOf_one_append] using congrArg (nibbleOf 1) h)
  have h0 : nibbleOf 0 a = nibbleOf 0 b := ht (by simpa only [subByte, nibbleOf_zero_append] using congrArg (nibbleOf 0) h)
  exact eq_of_extractLsb' (m := 4) (n := 4) h1 h0

/-- Step 2 is injective when `SBOX` is (rule R148). -/
theorem ksSubst_injective {t : Tables} (ht : Function.Injective (sboxAt t)) : Function.Injective (ksSubst t) := by
  intro x y h
  have htop : x.extractLsb' 120 8 = y.extractLsb' 120 8 := subByte_injective ht (by rw [← ksSubst_top, h, ksSubst_top])
  have hrest : x.extractLsb' 0 120 = y.extractLsb' 0 120 := by rw [← ksSubst_rest t, h, ksSubst_rest]
  exact eq_of_extractLsb' (m := 8) (n := 120) htop hrest

/-- Step 3 is injective: an XOR with the round index can be undone (rule R148). -/
theorem ksCount_injective (i : Nat) : Function.Injective (ksCount i) := by
  intro x y h
  have hhigh : x.extractLsb' 15 113 = y.extractLsb' 15 113 := by rw [← ksCount_high i, h, ksCount_high]
  have hfield : x.extractLsb' 10 5 = y.extractLsb' 10 5 :=
    (BitVec.xor_left_inj (BitVec.ofNat 5 i)).1 (by rw [← ksCount_field, h, ksCount_field])
  have hlow : x.extractLsb' 0 10 = y.extractLsb' 0 10 := by rw [← ksCount_low i, h, ksCount_low]
  have hjoin (z : Key) : z.extractLsb' 10 5 ++ z.extractLsb' 0 10 = z.extractLsb' 0 15 :=
    BitVec.extractLsb'_append_extractLsb'_eq_extractLsb' rfl
  exact eq_of_extractLsb' (m := 113) (n := 15) hhigh (by rw [← hjoin, hfield, hlow, hjoin])

/-- Settles O39: the three steps are injective, and an injection of the 128-bit states into themselves is a bijection. -/
theorem keyScheduleStepBijective : Obligations.KeyScheduleStepBijective := fun _ i ht =>
  Finite.injective_iff_bijective.1 ((ksCount_injective i).comp ((ksSubst_injective ht.1).comp ksRotate_injective))

/-! ### The schedule depends on the key and on `SBOX` alone -/

/-- The states are a function of what an iteration does. -/
theorem ksState_congr {t t' : Tables} (h : ksStep t = ksStep t') (key : Key) (n : Nat) :
    ksState t key n = ksState t' key n := by
  induction n with
  | zero => rfl
  | succ n ih => rw [ksState, ksState, ih, h]

/-- An iteration reads no table but `SBOX` (rules R142, R147). -/
theorem ksStep_of_sbox_eq {t t' : Tables} (h : t.sbox = t'.sbox) : ksStep t = ksStep t' := by
  have hs : sboxAt t = sboxAt t' := by funext n; simp only [sboxAt, h]
  funext s i
  simp only [ksStep, ksSubst, subByte, hs]

/-- So the schedule reads no table but `SBOX` (rule R147). -/
theorem keySchedule_of_sbox_eq {t t' : Tables} (h : t.sbox = t'.sbox) (key : Key) : keySchedule t key = keySchedule t' key := by
  have hstep := ksStep_of_sbox_eq h
  ext i hi
  rw [getElem_keySchedule t key hi, getElem_keySchedule t' key hi, ksState_congr hstep, hstep]

/-- The round keys a KEYGEN leaves (rule R233). -/
theorem exec_keygen_rk {s t : State} (he : exec .keygen s = .next t) (ht : s.tblErr = false) :
    t.rk = keySchedule s.params.tables s.ports.keyIn := by
  have hc : check .keygen s = none := check_eq_none.2 ⟨ht, rfl, rfl, rfl⟩
  cases he.symm.trans (exec_ok hc rfl)
  rfl

/-- Settles O40: the tables enter through `SBOX`, and KEYGEN takes its round keys from the schedule of its own key. -/
theorem keygenDeterminism : Obligations.KeygenDeterminism := by
  refine ⟨fun _ _ key h => keySchedule_of_sbox_eq h key, fun s u s' u' hs hu hst hut htab hkey => ?_⟩
  calc s'.rk = keySchedule s.params.tables s.ports.keyIn := exec_keygen_rk hs hst
    _ = keySchedule u.params.tables u.ports.keyIn := by rw [htab, hkey]
    _ = u'.rk := (exec_keygen_rk hu hut).symm

end Sys2Proof.Machine
end

section
/-! SUPPORT. The ARX stage (rules R12, R160, R162): how rotations of a lane compose, and which lanes a rotation by 4 leaves
as they are. -/

namespace Sys2Proof.Machine

/-! ### Rotations of a lane -/

/-- Bit `i` of a rotated lane is the bit `n` places below it, counted round (rule R12). -/
theorem getLsbD_rotl (x : Lane) {n i : Nat} (hn : n < 16) (hi : i < 16) :
    (x.rotateLeft n).getLsbD i = x.getLsbD ((i + (16 - n)) % 16) := by
  rw [BitVec.getLsbD_rotateLeft_of_le hn]
  by_cases hlow : i < n
  · have hsrc : (i + (16 - n)) % 16 = 16 - n + i := by omega
    rw [decide_eq_true hlow, cond_true, hsrc]
  · have hsrc : (i + (16 - n)) % 16 = i - n := by omega
    rw [decide_eq_false hlow, cond_false, hsrc, decide_eq_true hi, Bool.true_and]

/-- Rotations add up (rule R12). -/
theorem rotl_rotl (x : Lane) {m n : Nat} (hm : m < 16) (hn : n < 16) :
    (x.rotateLeft m).rotateLeft n = x.rotateLeft ((m + n) % 16) := by
  apply BitVec.eq_of_getLsbD_eq
  intro i hi
  have hmod (a : Nat) : a % 16 < 16 := Nat.mod_lt a (by decide)
  have hsrc : ((i + (16 - n)) % 16 + (16 - m)) % 16 = (i + (16 - (m + n) % 16)) % 16 := by omega
  rw [getLsbD_rotl _ hn hi, getLsbD_rotl x hm (hmod _), hsrc, getLsbD_rotl x (hmod _) hi]

/-- A rotation by 1 is undone by one by 15 (rule R12). -/
theorem rotl_one_inj {x y : Lane} : x.rotateLeft 1 = y.rotateLeft 1 ↔ x = y := by
  have hundo (z : Lane) : (z.rotateLeft 1).rotateLeft 15 = z := by
    rw [rotl_rotl z (by decide) (by decide)]
    exact BitVec.eq_of_getLsbD_eq fun i hi => by simp [getLsbD_rotl z (n := 0) (by decide) hi, Nat.mod_eq_of_lt hi]
  exact ⟨fun h => by rw [← hundo x, h, hundo], fun h => by rw [h]⟩

/-! ### The four nibbles of a lane -/

/-- A concatenation determines its parts (rule R12). -/
theorem append_inj {m n : Nat} {a b : BitVec m} {c d : BitVec n} : a ++ c = b ++ d ↔ a = b ∧ c = d := by
  refine ⟨fun h => ⟨?_, ?_⟩, fun ⟨hhi, hlo⟩ => by rw [hhi, hlo]⟩
  · simpa only [BitVec.extractLsb'_append_eq_left] using congrArg (BitVec.extractLsb' n m) h
  · simpa only [BitVec.extractLsb'_append_eq_right] using congrArg (BitVec.extractLsb' 0 n) h

/-- A lane is made of four nibbles (rule R67). -/
theorem exists_nibbles (x : Lane) : ∃ a b c d : Nibble, x = a ++ b ++ c ++ d := by
  refine ⟨x.extractLsb' 12 4, x.extractLsb' 8 4, x.extractLsb' 4 4, x.extractLsb' 0 4, ?_⟩
  have hjoin {n len : Nat} : x.extractLsb' (n + 4) len ++ x.extractLsb' n 4 = x.extractLsb' n (len + 4) :=
    BitVec.extractLsb'_append_extractLsb'_eq_extractLsb' rfl
  rw [hjoin (n := 8), hjoin (n := 4), hjoin (n := 0), BitVec.extractLsb'_eq_self]

/-- A rotation by 4 moves every nibble up one place, the top one to the bottom (rule R162). -/
theorem rotl_four_nibbles (a b c d : Nibble) : (a ++ b ++ c ++ d : Lane).rotateLeft 4 = b ++ c ++ d ++ a := by
  apply BitVec.eq_of_getLsbD_eq
  intro i hi
  rw [getLsbD_rotl _ (by decide) hi]
  simp only [BitVec.getLsbD_append]
  interval_cases i <;> rfl

/-- So it leaves exactly the lanes of four equal nibbles as they are (rule R162). -/
theorem rotl_four_eq_self_iff {z : Lane} : z.rotateLeft 4 = z ↔ ∃ n : Nibble, z = n ++ n ++ n ++ n := by
  constructor
  · intro h
    obtain ⟨a, b, c, d, rfl⟩ := exists_nibbles z
    rw [rotl_four_nibbles, append_inj, append_inj, append_inj] at h
    obtain ⟨⟨⟨rfl, rfl⟩, rfl⟩, -⟩ := h
    exact ⟨_, rfl⟩
  · rintro ⟨n, rfl⟩
    exact rotl_four_nibbles n n n n

/-! ### The kernel of F1 -/

/-- F1 collides along the differences that a rotation by 4 leaves as they are (rule R162): the key drops out, the rotations
distribute over the difference `z`, and `rotl z 5 = rotl (rotl z 4) 1`. -/
theorem f1_eq_f1_iff {x y k : Lane} : f1 x k = f1 y k ↔ (x ^^^ y).rotateLeft 4 = x ^^^ y := by
  have hadd : ((x ^^^ y).rotateLeft 4).rotateLeft 1 = (x ^^^ y).rotateLeft 5 := rotl_rotl _ (by decide) (by decide)
  calc f1 x k = f1 y k ↔ x.rotateLeft 5 ^^^ x.rotateLeft 1 = y.rotateLeft 5 ^^^ y.rotateLeft 1 := BitVec.xor_left_inj k
    _ ↔ (x ^^^ y).rotateLeft 5 ^^^ (x ^^^ y).rotateLeft 1 = 0#16 := by
      rw [← BitVec.xor_eq_zero_iff, rotl_xor, rotl_xor]
      ac_nf
    _ ↔ ((x ^^^ y).rotateLeft 4).rotateLeft 1 = (x ^^^ y).rotateLeft 1 := by rw [BitVec.xor_eq_zero_iff, hadd]
    _ ↔ (x ^^^ y).rotateLeft 4 = x ^^^ y := rotl_one_inj

/-- Settles O41: 0 and the lane of all ones, whose nibbles are four times 15, have one image under F1, so no function
recovers both. -/
theorem arxKernel : Obligations.ArxKernel := by
  refine ⟨fun x y k => f1_eq_f1_iff, fun z => rotl_four_eq_self_iff, fun k ⟨g, hg⟩ => ?_⟩
  have hcollide : f1 0 k = f1 0xFFFF k := f1_eq_f1_iff.2 (rotl_four_eq_self_iff.2 ⟨0xF, by decide⟩)
  have heq : (0 : Lane) = 0xFFFF := by rw [← hg 0, hcollide, hg]
  exact absurd heq (by decide)

end Sys2Proof.Machine
end

section
/-! SUPPORT. The history (rules R161 to R168): one push and one pop, and the ends of a command whose stack is too full or
not full enough. -/

namespace Sys2Proof.Machine

/-! ### One push and one pop -/

/-- Settles O32: the push adds one record on top, and below it the stack is as it was. -/
theorem popAfterPush : Obligations.PopAfterPush := by
  intro s x hm hl
  have htake : (s.hist.take s.sp ++ [recOf x]).take s.sp = s.hist := by simp [← hl]
  refine ⟨_, histPop_histPush x hm hl, ?_⟩
  rw [histPush_history x hm]
  simp only [dropPopped, hm, htake]

section pops

variable {s : State} {v k : Lane} {e : HistRec}

/-- A pop from an empty stack finds nothing (rule R165). -/
theorem histPop_eq_none (h : s.sp = 0) : histPop s = none := if_pos h

/-- A pop takes the record below `SP` (rule R165). -/
theorem histPop_eq_some (h : 0 < s.sp) (he : s.hist[s.sp - 1]? = some e) :
    histPop s = some (e, { s with sp := s.sp - 1 }) := by
  rw [histPop, if_neg (by omega), he]
  rfl

/-- `F1Inv` on an empty stack (rule R165). -/
theorem f1Inv_underflow (hm : s.params.arxMode = .history) (h : s.sp = 0) : f1Inv v k s = .error .nohist := by
  simp only [f1Inv, hm, histPop_eq_none h]

/-- `F1Inv` on a record popped: the value from the record, or NOHIST (rule R165). -/
theorem f1Inv_of_top (hm : s.params.arxMode = .history) (h : 0 < s.sp) (he : s.hist[s.sp - 1]? = some e) :
    f1Inv v k s = if e.x = v then .ok (some (recValue e k), { s with sp := s.sp - 1 }) else .error .nohist := by
  simp only [f1Inv, hm, histPop_eq_some h he]

/-- Settles O33: the record of `x` holds `x` to be checked, and the two rotations from which F1 of `x` comes back. -/
theorem arxInverseChecks : Obligations.ArxInverseChecks := by
  refine fun s v k hm => ⟨f1Inv_underflow hm, fun x hpos htop => ⟨fun hne => ?_, fun heq => ?_⟩⟩
  · exact (f1Inv_of_top hm hpos htop).trans (if_neg hne)
  · exact (f1Inv_of_top hm hpos htop).trans (if_pos heq)

end pops

/-! ### How many records a block takes -/

/-- `n` encrypt rounds make `2 n` F1 calls (rule R206). -/
theorem length_encTraceLoop (t : Tables) (rk : RoundKeys) (n : Nat) (l : Lanes) :
    (encTraceLoop t rk n l).length = 2 * n := by
  induction n with
  | zero => rfl
  | succ n ih => rw [encTraceLoop, List.length_append, ih]; rfl

/-- `n` decrypt rounds make `2 n` pops (rule R207). -/
theorem length_decPopsLoop (t : Tables) (rk : RoundKeys) (n : Nat) (l : Lanes) :
    (decPopsLoop t rk n l).length = 2 * n := by
  induction n generalizing l with
  | zero => rfl
  | succ n ih => rw [decPopsLoop, List.length_cons, List.length_cons, ih]; omega

/-- An ENC pushes 40 records (rule R206). -/
theorem length_encTrace (t : Tables) (rk : RoundKeys) (b : Block) : (encTrace t rk b).length = 40 :=
  length_encTraceLoop t rk 20 (lanesOf b)

/-- A DEC pops 40 records (rule R207). -/
theorem length_decPops (t : Tables) (rk : RoundKeys) (b : Block) : (decPops t rk b).length = 40 :=
  length_decPopsLoop t rk 20 (lanesOf b)

/-! ### The limits of the stack -/

section limits

variable {s t : State} {b : Block}

/-- A stack of fewer than 40 records does not hold what a DEC pops (rule R207). -/
theorem not_decAccepts_of_sp_lt (hm : s.params.arxMode = .history) (h : s.sp < 40) : ¬ DecAccepts b s := by
  intro ha
  have hle := (ha hm).2.length_le
  simp only [length_decPops, topXs, List.length_map, List.length_reverse, List.length_take] at hle
  omega

/-- Missing room is the last test (rule R231). -/
theorem check_enc_hovf (ht : s.tblErr = false) (hk : keyOk s = true) (hr : hRoom s = false) : check .enc s = some .hovf := by
  simp [check, ht, hk, hr, legal, wellFormed, keysWritten, historyRoom]

/-- A DEC has no test of its stack at acceptance (rule R231). -/
theorem check_dec_none (ht : s.tblErr = false) (hk : keyOk s = true) : check .dec s = none :=
  check_eq_none.2 ⟨ht, rfl, hk, rfl⟩

/-- A DEC past its checks whose records are not accepted ends with NOHIST (rules R207, R235). -/
theorem exec_dec_nohist (ht : s.tblErr = false) (hk : keyOk s = true) (hd : ¬ DecAccepts s.ports.din s) :
    ∃ t, exec .dec s = .next t ∧ EndsWith .nohist s t :=
  ⟨_, exec_bodyError (check_dec_none ht hk) (bodyDec_error (s := beginCommand s) hd), endsWith_raise .nohist s⟩

/-- Settles O21: an ENC is refused at acceptance, a DEC fails at its pops. -/
theorem historyLimits : Obligations.HistoryLimits := by
  refine fun s ht hk hm => ⟨fun d hd hlt => ?_, fun hlt => exec_dec_nohist ht hk (not_decAccepts_of_sp_lt hm hlt)⟩
  have hroom : hRoom s = false := by simpa [hRoom, hm, hd] using hlt
  exact ⟨_, exec_checkError (check_enc_hovf ht hk hroom), endsWith_raise .hovf s⟩

end limits

end Sys2Proof.Machine
end

section
/-! SUPPORT. The trace of a block and the pops that read it backwards (rules R168, R204 to R209): what a trace says of its
block, that an encrypt round undoes a decrypt round under TABLES_OK, and what a successful ENC or DEC leaves. -/

namespace Sys2Proof.Machine

/-! ### The trace identifies the block -/

/-- The first two rounds take all four lanes through F1 (rules R201, R206). -/
theorem take_four_encTraceLoop (t : Tables) (rk : RoundKeys) (n : Nat) (l : Lanes) :
    (encTraceLoop t rk (n + 2) l).take 4 = [l.l1, l.r0, l.r1, l.l0] := by
  induction n with
  | zero => rfl
  | succ n ih =>
    have hlen : 4 ≤ (encTraceLoop t rk (n + 2) l).length := by rw [length_encTraceLoop]; omega
    rw [encTraceLoop, List.take_append_of_le_length hlen, ih]

/-- The trace begins with the lanes of the block (rule R206). -/
theorem take_four_encTrace (t : Tables) (rk : RoundKeys) (b : Block) : (encTrace t rk b).take 4 =
    [b.extractLsb' 32 16, b.extractLsb' 16 16, b.extractLsb' 0 16, b.extractLsb' 48 16] :=
  take_four_encTraceLoop t rk 18 (lanesOf b)

/-- So blocks with the same trace have the same lanes (rule R168). -/
theorem encTrace_injective (t : Tables) (rk : RoundKeys) : Function.Injective (encTrace t rk) := by
  intro b b' h
  have hfour := congrArg (List.take 4) h
  simp only [take_four_encTrace, List.cons.injEq, and_true] at hfour
  obtain ⟨hl1, hr0, hr1, hl0⟩ := hfour
  have hlanes : lanesOf b = lanesOf b' := by simp only [lanesOf, hl0, hl1, hr0, hr1]
  rw [← blockOf_lanesOf b, hlanes, blockOf_lanesOf]

/-- Settles O45. -/
theorem traceIdentifiesBlock : Obligations.TraceIdentifiesBlock := fun t rk b =>
  ⟨length_encTrace t rk b, take_four_encTrace t rk b, fun _ h => encTrace_injective t rk h⟩

/-! ### Encrypt rounds undo decrypt rounds -/

section undo

variable {t : Tables} {rk : RoundKeys}

/-- F2 undoes its inverse (rules R131, R184). -/
theorem f2_f2Inv (ht : TablesOk t) (y k : Word32) : f2 t (f2Inv t y k) k = y := by
  obtain ⟨-, hsub, -, -⟩ := layersInverse t (invPermBits t y) ht
  obtain ⟨-, -, -, hperm⟩ := layersInverse t y ht
  rw [f2, f2Inv, BitVec.xor_assoc, BitVec.xor_self, BitVec.xor_zero, hsub, hperm]

/-- An encrypt round undoes the decrypt round of its key: its middle word is what the decrypt round recovered (rules R201,
R204). -/
theorem encLanes_decLanes (ht : TablesOk t) (k : Word32) (l : Lanes) : encLanes t k (decLanes t k l) = l := by
  have hmid : middleWord (decLanes t k l) = decTemp t k l := high16_append_low16 (decTemp t k l)
  have hf2 : f2 t (middleWord (decLanes t k l)) k = l.r1 ++ l.l0 := by rw [hmid, decTemp, f2_f2Inv ht]; rfl
  simp only [encLanes, hf2, high16_append, low16_append]
  rfl

/-- So do the rounds in order (rules R202, R205). -/
theorem encLanesLoop_decLanesLoop (ht : TablesOk t) (n : Nat) (l : Lanes) :
    encLanesLoop t rk n (decLanesLoop t rk n l) = l := by
  induction n generalizing l with
  | zero => rfl
  | succ n ih => rw [encLanesLoop, decLanesLoop, ih, encLanes_decLanes ht]

/-- Encryption undoes decryption (rule R209). -/
theorem encryptBlock_decryptBlock (ht : TablesOk t) (b : Block) : encryptBlock t rk (decryptBlock t rk b) = b := by
  rw [encryptBlock, decryptBlock, lanesOf_blockOf, encLanesLoop_decLanesLoop ht, blockOf_lanesOf]

/-- The values `n` decrypt rounds recover are the F1 inputs of the encrypt rounds that undo them, the last first (rule
R207). -/
theorem encTraceLoop_decLanesLoop (ht : TablesOk t) (n : Nat) (l : Lanes) :
    encTraceLoop t rk n (decLanesLoop t rk n l) = (decPopsLoop t rk n l).reverse := by
  induction n generalizing l with
  | zero => rfl
  | succ n ih =>
    rw [encTraceLoop, decLanesLoop, ih, encLanesLoop_decLanesLoop ht, decPopsLoop, List.reverse_cons, List.reverse_cons,
      List.append_assoc]
    rfl

/-- A DEC pops the trace of its result backwards (rule R207). -/
theorem decPops_eq_reverse_encTrace (ht : TablesOk t) (b : Block) :
    decPops t rk b = (encTrace t rk (decryptBlock t rk b)).reverse := by
  rw [encTrace, decryptBlock, lanesOf_blockOf, encTraceLoop_decLanesLoop ht, List.reverse_reverse, decPops]

/-- A DEC pops the trace of the block `a` only when it undoes the encryption of `a` (rule R168). -/
theorem eq_encryptBlock_of_decPops_isPrefix (ht : TablesOk t) {a c : Block} {xs : List Lane}
    (h : decPops t rk c <+: (encTrace t rk a).reverse ++ xs) : c = encryptBlock t rk a := by
  obtain ⟨ys, hys⟩ := h
  have hpops : decPops t rk c = (encTrace t rk a).reverse :=
    List.append_inj_left hys (by rw [length_decPops, List.length_reverse, length_encTrace])
  have htrace : encTrace t rk (decryptBlock t rk c) = encTrace t rk a :=
    List.reverse_injective (by rw [← decPops_eq_reverse_encTrace ht, hpops])
  rw [← encTrace_injective t rk htrace, encryptBlock_decryptBlock ht]

end undo

/-! ### Commands that end without error -/

section success

variable {i : Instr} {s t : State}

/-- A command that leaves `ERR` at 0 passed its checks, and its body raised nothing (rules R230, R262). -/
theorem exec_err_zero (h : exec i s = .next t) (h0 : t.err = 0) :
    check i s = none ∧ ∃ u, bodyOf i s (beginCommand s) = .ok u ∧ t = complete u := by
  rcases exec_cases i s with ⟨e, -, he⟩ | ⟨e, -, -, he⟩ | ⟨u, hc, hb, he⟩ <;> cases he.symm.trans h
  · exact absurd h0 (errBits_ne_zero e)
  · exact absurd h0 (errBits_ne_zero e)
  · exact ⟨hc, u, hb, rfl⟩

/-- What a successful ENC leaves (rule R234). -/
theorem exec_enc_err_zero (h : exec .enc s = .next t) (h0 : t.err = 0) :
    check .enc s = none ∧ t = complete (encDone s.ports.din (beginCommand s)) := by
  obtain ⟨hc, u, hb, rfl⟩ := exec_err_zero h h0
  cases (bodyEnc_eq (blk := s.ports.din)).symm.trans hb
  exact ⟨hc, rfl⟩

/-- What a successful DEC leaves (rule R235). -/
theorem exec_dec_err_zero (h : exec .dec s = .next t) (h0 : t.err = 0) :
    DecAccepts s.ports.din s ∧ t = complete (decDone s.ports.din (beginCommand s)) := by
  obtain ⟨-, u, hb, rfl⟩ := exec_err_zero h h0
  by_cases ha : DecAccepts s.ports.din (beginCommand s)
  · cases (bodyDec_ok ha).symm.trans hb
    exact ⟨ha, rfl⟩
  · cases (bodyDec_error ha).symm.trans hb

/-- Settles O49: `DOUT` holds a function of the tables, the round keys and the block. -/
theorem resultIndependentOfHistory : Obligations.ResultIndependentOfHistory := by
  intro i s u s' u' hi hs hu hs0 hu0 hrk htab hdin
  rcases hi with rfl | rfl
  · obtain ⟨-, rfl⟩ := exec_enc_err_zero hs hs0
    obtain ⟨-, rfl⟩ := exec_enc_err_zero hu hu0
    show encryptBlock s.params.tables s.rk s.ports.din = encryptBlock u.params.tables u.rk u.ports.din
    rw [htab, hrk, hdin]
  · obtain ⟨-, rfl⟩ := exec_dec_err_zero hs hs0
    obtain ⟨-, rfl⟩ := exec_dec_err_zero hu hu0
    show decryptBlock s.params.tables s.rk s.ports.din = decryptBlock u.params.tables u.rk u.ports.din
    rw [htab, hrk, hdin]

/-- After records have been pushed, the top of the stack carries their `x`, the last first (rule R163). -/
theorem topXs_append_recOf (hist : List HistRec) (xs : List Lane) :
    topXs (hist ++ xs.map recOf) (hist.length + xs.length) = xs.reverse ++ topXs hist hist.length := by
  have hx : (fun r : HistRec => r.x) ∘ recOf = id := rfl
  simp [topXs, List.take_of_length_le, hx]

/-- After a successful ENC the top of the stack carries the trace of its block (rules R163, R206). -/
theorem topXs_of_exec_enc (hm : s.params.arxMode = .history) (hl : s.hist.length = s.sp) (h : exec .enc s = .next t)
    (h0 : t.err = 0) :
    topXs t.hist t.sp = (encTrace s.params.tables s.rk s.ports.din).reverse ++ topXs s.hist s.sp := by
  obtain ⟨-, rfl⟩ := exec_enc_err_zero h h0
  have htop := topXs_append_recOf s.hist (encTrace s.params.tables s.rk s.ports.din)
  rw [length_encTrace, hl] at htop
  simpa [encDone, hm, ← hl] using htop

/-- Settles O48: the records accepted would be the trace of the encrypted block, which only its ciphertext pops. -/
theorem decUndoesOnlyTheLastEnc : Obligations.DecUndoesOnlyTheLastEnc := by
  intro s t u htab hm hl h h0 hkeys hhist hparams hterr hdin
  have htop := topXs_of_exec_enc hm hl h h0
  obtain ⟨hc, rfl⟩ := exec_enc_err_zero h h0
  obtain ⟨-, -, hkeyOk, -⟩ := check_eq_none.1 hc
  obtain ⟨hrk, hrkv⟩ := hkeys
  obtain ⟨hhist, hsp⟩ := hhist
  have hku : keyOk u = true := by rw [keyOk, hrkv]; exact hkeyOk
  refine exec_dec_nohist hterr hku fun hacc => hdin ?_
  have hpops := (hacc (by rw [hparams]; exact hm)).2
  rw [hparams, hrk, hhist, hsp, htop] at hpops
  exact eq_encryptBlock_of_decPops_isPrefix htab hpops

end success

end Sys2Proof.Machine
end

section
/-! SUPPORT. F2 and its inverse as words in and out (rules R180, R181, R184). -/

namespace Sys2Proof.Machine

/-- F2 does not tell its input from its key (rule R180). -/
theorem f2_comm (t : Tables) (x k : Word32) : f2 t x k = f2 t k x := by
  rw [f2, f2, BitVec.xor_comm]

/-- F2 is a function of the XOR of its input and its key (rule R180). -/
theorem f2_eq_f2_xor_zero (t : Tables) (x k : Word32) : f2 t x k = f2 t (x ^^^ k) 0 := by
  simp only [f2, BitVec.ofNat_eq_ofNat, BitVec.xor_zero]

/-- The inverse undoes F2: the layers cancel from the outside in, and the key XOR last (rules R131, R184). -/
theorem f2Inv_f2 {t : Tables} (ht : TablesOk t) (x k : Word32) : f2Inv t (f2 t x k) k = x := by
  obtain ⟨-, -, hperm, -⟩ := layersInverse t (subWord32 t (x ^^^ k)) ht
  obtain ⟨hsub, -, -, -⟩ := layersInverse t (x ^^^ k) ht
  rw [f2, f2Inv, hperm, hsub, BitVec.xor_assoc, BitVec.xor_self, BitVec.xor_zero]

/-- Settles O42: the layers are those of the definitions, and under TABLES_OK they cancel in both orders. -/
theorem spnRoundTrip : Obligations.SpnRoundTrip := fun t x k =>
  ⟨rfl, rfl, ⟨f2_comm t x k, f2_eq_f2_xor_zero t x k⟩, fun ht => ⟨f2Inv_f2 ht x k, f2_f2Inv ht x k⟩⟩

end Sys2Proof.Machine
end

section
/-! SUPPORT. The block as two words (rule R210): where a round takes them, and that encryption is ten F2 steps on each; and
that decryption undoes encryption (rule R209). -/

namespace Sys2Proof.Machine

variable {t : Tables} {rk : RoundKeys}

/-- A round makes the old outer word the middle word (rule R210). -/
theorem middleWord_encLanes (t : Tables) (k : Word32) (l : Lanes) : middleWord (encLanes t k l) = outerWord l := rfl

/-- A round makes F2 of the old middle word the outer word (rule R210). -/
theorem outerWord_encLanes (t : Tables) (k : Word32) (l : Lanes) :
    outerWord (encLanes t k l) = f2 t (middleWord l) k := high16_append_low16 (f2 t (middleWord l) k)

/-- The middle word of a block is `blk[47:16]` (rules R200, R210). -/
theorem middleWord_lanesOf (b : Block) : middleWord (lanesOf b) = b.extractLsb' 16 32 :=
  BitVec.extractLsb'_append_extractLsb'_eq_extractLsb' rfl

/-- The block of four lanes, by the halves of its two words (rules R203, R210). -/
theorem blockOf_eq_halves (l : Lanes) : blockOf l =
    low16 (outerWord l) ++ high16 (middleWord l) ++ low16 (middleWord l) ++ high16 (outerWord l) := by
  simp only [middleWord, outerWord, high16_append, low16_append, blockOf]

/-- Two rounds take each word to F2 in its place: the middle word under the first key, the outer under the second. -/
theorem words_encLanesLoop_add_two (t : Tables) (rk : RoundKeys) (n : Nat) (l : Lanes) :
    middleWord (encLanesLoop t rk (n + 2) l) = f2 t (middleWord (encLanesLoop t rk n l)) (keyAt rk n) ∧
    outerWord (encLanesLoop t rk (n + 2) l) = f2 t (outerWord (encLanesLoop t rk n l)) (keyAt rk (n + 1)) := by
  simp only [encLanesLoop, middleWord_encLanes, outerWord_encLanes, and_self]

/-- So after `2 n` rounds each word has taken `n` F2 steps of its own, whatever the other does (rule R210). -/
theorem words_of_chains {l : Lanes} {a o : Nat → Word32} {m : Nat} (ha0 : a 0 = middleWord l) (ho0 : o 0 = outerWord l)
    (ha : ∀ j < m, a (j + 1) = f2 t (a j) (keyAt rk (2 * j)))
    (ho : ∀ j < m, o (j + 1) = f2 t (o j) (keyAt rk (2 * j + 1))) {n : Nat} (hn : n ≤ m) :
    middleWord (encLanesLoop t rk (2 * n) l) = a n ∧ outerWord (encLanesLoop t rk (2 * n) l) = o n := by
  induction n with
  | zero => exact ⟨ha0.symm, ho0.symm⟩
  | succ n ih =>
    obtain ⟨hmid, hout⟩ := ih (Nat.le_of_succ_le hn)
    obtain ⟨hmid2, hout2⟩ := words_encLanesLoop_add_two t rk (2 * n) l
    exact ⟨by rw [ha n hn, ← hmid]; exact hmid2, by rw [ho n hn, ← hout]; exact hout2⟩

/-- Settles O44: the two chains are the words of the lanes after 20 rounds, whose halves are the lanes of the result. -/
theorem twoWordsNeverMix : Obligations.TwoWordsNeverMix := by
  refine fun t rk b a o => ⟨fun k l => ⟨middleWord_encLanes t k l, outerWord_encLanes t k l⟩, fun ha0 ho0 ha ho => ?_⟩
  obtain ⟨hmid, hout⟩ := words_of_chains (ha0.trans (middleWord_lanesOf b).symm) ho0 ha ho (le_refl 10)
  rw [encryptBlock, blockOf_eq_halves, hmid, hout]

/-! ### Decryption undoes encryption -/

/-- Decryption undoes encryption (rule R209): encryption undoes it, so it is injective, and on the finite set of blocks
it is onto. -/
theorem decryptBlock_encryptBlock (ht : TablesOk t) (b : Block) : decryptBlock t rk (encryptBlock t rk b) = b := by
  have hleft : Function.LeftInverse (encryptBlock t rk) (decryptBlock t rk) := encryptBlock_decryptBlock ht
  have honto : Function.Surjective (decryptBlock t rk) := Finite.surjective_of_injective hleft.injective
  exact hleft.rightInverse_of_surjective honto b

/-- Settles O43. -/
theorem blockFunctionsInverse : Obligations.BlockFunctionsInverse := fun _ _ b ht =>
  ⟨decryptBlock_encryptBlock ht b, encryptBlock_decryptBlock ht b⟩

end Sys2Proof.Machine
end

section
/-! SUPPORT. ENC and DEC past their checks (rules R202 to R208, R234, R235): the state each leaves, when a DEC succeeds, and
that it undoes the ENC before it. -/

namespace Sys2Proof.Machine

variable {s : State} {b : Block}

/-! ### ENC -/

/-- An ENC with keys and room (rule R234). -/
theorem exec_enc_ok (ht : s.tblErr = false) (hk : keyOk s = true) (hr : hRoom s = true) :
    exec .enc s = .next (complete (encDone s.ports.din (beginCommand s))) :=
  exec_ok (check_eq_none.2 ⟨ht, rfl, hk, hr⟩) bodyEnc_eq

/-- The frame of a completed ENC (rule R230). -/
theorem endsWell_encDone (b : Block) (s : State) : EndsWell s (complete (encDone b (beginCommand s))) :=
  ⟨⟨rfl, rfl⟩, rfl, rfl, ⟨rfl, rfl, rfl, rfl⟩⟩

/-- In `HISTORY` mode an ENC leaves the records of its block on top of the stack (rule R206). -/
theorem stack_encDone (b : Block) (hm : s.params.arxMode = .history) :
    (complete (encDone b (beginCommand s))).hist = s.hist.take s.sp ++ (encTrace s.params.tables s.rk b).map recOf ∧
    (complete (encDone b (beginCommand s))).sp = s.sp + 40 := by
  simp [encDone, hm]

/-- In `STATELESS` mode it leaves the history alone (rule R169). -/
theorem sameHistory_encDone (b : Block) (hm : s.params.arxMode = .stateless) :
    SameHistory s (complete (encDone b (beginCommand s))) := by
  constructor <;> simp [encDone, hm]

/-- Settles O13. -/
theorem encRuns : Obligations.EncRuns := fun s ht hk hr =>
  ⟨_, exec_enc_ok ht hk hr, endsWell_encDone _ s, rfl, rfl, ⟨rfl, rfl⟩, stack_encDone _, sameHistory_encDone _⟩

/-! ### DEC -/

/-- A DEC past its checks whose records are accepted (rule R235). -/
theorem exec_dec_ok (ht : s.tblErr = false) (hk : keyOk s = true) (ha : DecAccepts s.ports.din s) :
    exec .dec s = .next (complete (decDone s.ports.din (beginCommand s))) :=
  exec_ok (check_dec_none ht hk) (bodyDec_ok (s := beginCommand s) ha)

/-- The frame of a completed DEC (rule R230). -/
theorem endsWell_decDone (b : Block) (s : State) : EndsWell s (complete (decDone b (beginCommand s))) :=
  ⟨⟨rfl, rfl⟩, rfl, rfl, ⟨rfl, rfl, rfl, rfl⟩⟩

/-- In `HISTORY` mode a DEC removes the top 40 records (rule R207). -/
theorem stack_decDone (b : Block) (hm : s.params.arxMode = .history) :
    (complete (decDone b (beginCommand s))).hist = s.hist.take (s.sp - 40) ∧
    (complete (decDone b (beginCommand s))).sp = s.sp - 40 := by
  simp [decDone, hm]

/-- In `STATELESS` mode it leaves the history alone (rule R169). -/
theorem sameHistory_decDone (b : Block) (hm : s.params.arxMode = .stateless) :
    SameHistory s (complete (decDone b (beginCommand s))) := by
  constructor <;> simp [decDone, hm]

/-- Accepting records takes 40 of them (rule R207). -/
theorem DecAccepts.le_sp (ha : DecAccepts b s) (hm : s.params.arxMode = .history) : 40 ≤ s.sp :=
  Nat.le_of_not_lt fun hlt => not_decAccepts_of_sp_lt hm hlt ha

/-- When a DEC accepts a stack that holds as many records as `SP` says (rule R207). -/
theorem decAccepts_iff (hl : s.hist.length = s.sp) : DecAccepts b s ↔
    s.params.arxMode = .stateless ∨ decPops s.params.tables s.rk b <+: s.hist.reverse.map (·.x) := by
  have htop : topXs s.hist s.sp = s.hist.reverse.map (·.x) := by rw [topXs, ← hl, List.take_length]
  rw [DecAccepts, htop]
  cases hm : s.params.arxMode <;> simp [hl]

/-- Settles O14. -/
theorem decRuns : Obligations.DecRuns := fun s ht hk hl hpops => by
  have ha : DecAccepts s.ports.din s := (decAccepts_iff hl).2 hpops
  refine ⟨_, exec_dec_ok ht hk ha, endsWell_decDone _ s, rfl, rfl, ⟨rfl, rfl⟩, fun hm => ?_, sameHistory_decDone _⟩
  obtain ⟨hhist, hsp⟩ := stack_decDone s.ports.din hm
  exact ⟨hhist, hsp, ha.le_sp hm⟩

/-- Under TABLES_OK the records accepted are those of the result's trace, read backwards (rule R207). -/
theorem decAccepts_iff_trace (htab : TablesOk s.params.tables) (hm : s.params.arxMode = .history)
    (hl : s.hist.length = s.sp) : DecAccepts b s ↔ 40 ≤ s.sp ∧ (s.hist.reverse.take 40).map (·.x) =
      (encTrace s.params.tables s.rk (decryptBlock s.params.tables s.rk b)).reverse := by
  have hprefix : DecAccepts b s ↔ (s.hist.reverse.take 40).map (·.x) =
      (encTrace s.params.tables s.rk (decryptBlock s.params.tables s.rk b)).reverse := by
    rw [decAccepts_iff hl, List.prefix_iff_eq_take, length_decPops, decPops_eq_reverse_encTrace htab, List.map_take]
    simp [hm, eq_comm]
  exact ⟨fun ha => ⟨ha.le_sp hm, hprefix.1 ha⟩, fun ⟨_, htop⟩ => hprefix.2 htop⟩

/-- Settles O47, by the two ways a DEC past its checks can end. -/
theorem decSucceedsExactly : Obligations.DecSucceedsExactly := by
  intro s t htab hm hl ht hk h
  rw [← decAccepts_iff_trace htab hm hl]
  by_cases ha : DecAccepts s.ports.din s
  · cases (exec_dec_ok ht hk ha).symm.trans h
    exact ⟨iff_of_true rfl ha, fun _ => stack_decDone s.ports.din hm, fun hne => absurd rfl hne⟩
  · obtain ⟨v, hv, hend⟩ := exec_dec_nohist ht hk ha
    cases hv.symm.trans h
    have hne : t.err ≠ 0 := by rw [hend.err]; exact errBits_ne_zero .nohist
    exact ⟨iff_of_false hne ha, fun h0 => absurd h0 hne, fun _ => hend⟩

/-! ### DEC after ENC -/

/-- A DEC accepts the stack that the ENC of its plaintext left (rule R208). -/
theorem decAccepts_of_exec_enc {t u : State} (htab : TablesOk s.params.tables) (hl : s.hist.length = s.sp)
    (h : exec .enc s = .next t) (h0 : t.err = 0) (hrk : u.rk = s.rk) (hp : u.params = s.params)
    (hh : SameHistory t u) : DecAccepts (encryptBlock s.params.tables s.rk s.ports.din) u := by
  intro hm
  rw [hp] at hm ⊢
  obtain ⟨hhist, hsp⟩ := hh
  rw [hrk, hhist, hsp, topXs_of_exec_enc hm hl h h0, decPops_eq_reverse_encTrace htab, decryptBlock_encryptBlock htab]
  refine ⟨?_, List.prefix_append _ _⟩
  obtain ⟨-, rfl⟩ := exec_enc_err_zero h h0
  obtain ⟨hhist', hsp'⟩ := stack_encDone s.ports.din hm
  rw [hhist', hsp']
  simp [hl, length_encTrace]

/-- A DEC takes away what an ENC has put on the stack (rule R208). -/
theorem sameHistory_enc_dec {u : State} (c : Block) (hl : s.hist.length = s.sp) (hp : u.params = s.params)
    (hh : SameHistory (complete (encDone b (beginCommand s))) u) :
    SameHistory s (complete (decDone c (beginCommand u))) := by
  obtain ⟨hhist, hsp⟩ := hh
  cases hm : s.params.arxMode with
  | history =>
    obtain ⟨henc, hencsp⟩ := stack_encDone b hm
    obtain ⟨hdec, hdecsp⟩ := stack_decDone (s := u) c (by rw [hp, hm])
    rw [hsp, hencsp, Nat.add_sub_cancel] at hdec hdecsp
    rw [hhist, henc] at hdec
    exact ⟨hdec.trans (by simp [← hl]), hdecsp⟩
  | stateless =>
    obtain ⟨henc, hencsp⟩ := sameHistory_encDone b hm
    obtain ⟨hdec, hdecsp⟩ := sameHistory_decDone (s := u) c (by rw [hp, hm])
    exact ⟨(hdec.trans hhist).trans henc, (hdecsp.trans hsp).trans hencsp⟩

/-- Settles O46: the DEC accepts the trace the ENC has pushed, decrypts the ciphertext, and leaves the stack below. -/
theorem encThenDecRoundTrip : Obligations.EncThenDecRoundTrip := by
  intro s t u htab hl h h0 ⟨hrk, hrkv⟩ hh hp ht hdin
  have hacc := decAccepts_of_exec_enc (u := u) htab hl h h0
  obtain ⟨hc, rfl⟩ := exec_enc_err_zero h h0
  obtain ⟨-, -, hk, -⟩ := check_eq_none.1 hc
  change u.rk = s.rk at hrk
  change u.rkv = s.rkv at hrkv
  change u.params = s.params at hp
  change u.ports.din = encryptBlock s.params.tables s.rk s.ports.din at hdin
  have hku : keyOk u = true := by rw [keyOk, hrkv]; exact hk
  have ha : DecAccepts u.ports.din u := by rw [hdin]; exact hacc hrk hp hh
  refine ⟨_, exec_dec_ok ht hku ha, endsWell_decDone _ u, rfl, ?_, ⟨hrk, hrkv⟩, sameHistory_enc_dec _ hl hp hh⟩
  show decryptBlock u.params.tables u.rk u.ports.din = s.ports.din
  rw [hp, hrk, hdin, decryptBlock_encryptBlock htab]

end Sys2Proof.Machine
end

section
/-! SUPPORT. Every command completes (rules R230, R318), and what NOP, KEYGEN, RDRK, WRRK and CLRH leave past their checks
(rules R232, R233, R236 to R238, R266). -/

namespace Sys2Proof.Machine

/-! ### Completion -/

/-- Settles O24: a command ends in `raise` or in `complete`, and both set `DONE` and go to `IDLE`. -/
theorem everyCommandCompletes : Obligations.EveryCommandCompletes := by
  intro i s
  obtain ⟨t, h⟩ := exec_next i s
  have hdone : t.done = true := by
    rcases exec_next_cases h with ⟨e, rfl⟩ | ⟨u, rfl, -⟩ <;> rfl
  exact ⟨t, h, ⟨hdone, exec_fsm_idle h⟩, exec_same h⟩

section effects

variable {i : Instr} {s u : State} {idx : BitVec 5}

/-- Completing what a body leaves gives the frame of a command without error (rule R230). -/
theorem BodyFrame.endsWell (h : BodyFrame i s u) : EndsWell s (complete u) := by
  obtain ⟨hp, ht, hio, hio'⟩ := h.same
  exact ⟨⟨rfl, rfl⟩, rfl, h.fault, ⟨hp, ht, hio, hio'⟩⟩

/-- A command past its checks, whose body raises nothing, ends well in the body's state. -/
theorem exec_endsWell {P : State → Prop} (hc : check i s = none) (hb : bodyOf i s (beginCommand s) = .ok u)
    (hP : P (complete u)) : ∃ t, exec i s = .next t ∧ EndsWell s t ∧ P t :=
  ⟨complete u, exec_ok hc hb, (body_frame hb).endsWell, hP⟩

/-! ### NOP and KEYGEN -/

/-- Settles O11: the body of NOP writes nothing. -/
theorem nopRuns : Obligations.NopRuns := fun _ ht =>
  exec_endsWell (check_eq_none.2 ⟨ht, rfl, rfl, rfl⟩) rfl ⟨rfl, rfl, ⟨rfl, rfl⟩, ⟨rfl, rfl⟩⟩

/-- `KEYOK` is 1 once every valid bit is set (rule R27). -/
theorem keyOk_of_rkv_eq (h : s.rkv = Vector.replicate 20 true) : keyOk s = true :=
  (keyOk_iff s).2 fun n => by simp [h]

/-- Settles O12: the body of KEYGEN writes the key schedule and all valid bits, and nothing else. -/
theorem keygenRuns : Obligations.KeygenRuns := fun _ ht =>
  exec_endsWell (check_eq_none.2 ⟨ht, rfl, rfl, rfl⟩) rfl
    ⟨rfl, rfl, keyOk_of_rkv_eq rfl, rfl, rfl, ⟨rfl, rfl⟩⟩

/-! ### RDRK and WRRK -/

/-- A written round key may be read (rules R91, R231). -/
theorem check_rdrk_none (h : idx.toNat < 20) (ht : s.tblErr = false) (hv : s.rkv[idx.toNat] = true) :
    check (.rdrk idx) s = none := by
  refine check_eq_none.2 ⟨ht, decide_eq_true h, ?_, rfl⟩
  rw [keysWritten, rkIndex_eq_some h]
  exact hv

/-- The body of RDRK for an index that names a round key (rule R236). -/
theorem bodyRdrk_ok (h : idx.toNat < 20) (s : State) :
    bodyRdrk idx s = .ok { s with dout := zext64 (rkRead s ⟨idx.toNat, h⟩), doutValid := true } := by
  rw [bodyRdrk, rkIndex_eq_some h]

/-- A widened round key is that key with zeros on top (rules R75, R236). -/
theorem zext64_eq_append (v : Word32) : zext64 v = 0#32 ++ v := BitVec.setWidth_eq_append (by decide)

/-- Settles O15: the body of RDRK writes `DOUT` alone, the low half with the entry and the high half with zeros. -/
theorem rdrkRuns : Obligations.RdrkRuns := by
  intro s idx h ht hv
  refine exec_endsWell (check_rdrk_none h ht hv) (bodyRdrk_ok h _) ⟨rfl, ?_, ?_, ⟨rfl, rfl⟩, ⟨rfl, rfl⟩⟩
  · exact (congrArg _ (zext64_eq_append _)).trans BitVec.extractLsb'_append_eq_right
  · exact (congrArg _ (zext64_eq_append _)).trans BitVec.extractLsb'_append_eq_left

/-- The body of WRRK for an index that names a round key (rule R237). -/
theorem bodyWrrk_ok (h : idx.toNat < 20) (v : Word32) (s : State) :
    bodyWrrk idx v s = .ok (rkWrite ⟨idx.toNat, h⟩ v s) := by
  rw [bodyWrrk, rkIndex_eq_some h]

/-- A write to `RK` leaves the other entries and their valid bits alone (rule R62). -/
theorem rkWrite_ne {m n : Fin 20} (h : n.val ≠ m.val) (v : Word32) (s : State) :
    (rkWrite m v s).rk[n] = s.rk[n] ∧ (rkWrite m v s).rkv[n] = s.rkv[n] :=
  ⟨Vector.getElem_set_ne m.isLt n.isLt h.symm, Vector.getElem_set_ne m.isLt n.isLt h.symm⟩

/-- Settles O16: the body of WRRK is one write to `RK`. -/
theorem wrrkRuns : Obligations.WrrkRuns := by
  intro s idx h ht
  refine exec_endsWell (check_eq_none.2 ⟨ht, decide_eq_true h, rfl, rfl⟩) (bodyWrrk_ok h _ _)
    ⟨?_, ?_, fun n hn => rkWrite_ne hn _ _, rfl, rfl, ⟨rfl, rfl⟩⟩
  · exact Vector.getElem_set_self h
  · exact Vector.getElem_set_self h

/-! ### CLRH -/

/-- In `HISTORY` mode the body of CLRH drops every record (rule R238). -/
theorem bodyClrh_history (hm : s.params.arxMode = .history) : bodyClrh s = .ok { s with hist := [], sp := 0 } := by
  rw [bodyClrh, hm]

/-- In `STATELESS` mode it does nothing (rule R238). -/
theorem bodyClrh_stateless (hm : s.params.arxMode = .stateless) : bodyClrh s = .ok s := by
  rw [bodyClrh, hm]

/-- There is no record on the stack when `HEMPTY` is 1 (rules R28, R38). -/
theorem stack_eq_nil_of_hEmpty (h : hEmpty s = true) : stack s = [] := by
  rw [stack, of_decide_eq_true h, List.take_zero]

/-- An empty stack of a depth that rule R7 allows has room for a block (rules R164, R266). -/
theorem hRoom_of_hEmpty (h : hEmpty s = true) (hd : ∀ d, s.params.histDepth = some d → 40 ≤ d) : hRoom s = true := by
  refine (hRoom_iff s).2 (((hEmpty_iff s).1 h).imp_right fun h0 d hdep => ?_)
  rw [h0, Nat.zero_add]
  exact hd d hdep

/-- Settles O17: in `HISTORY` mode the body of CLRH empties the stack, in `STATELESS` mode there is none. -/
theorem clrhRuns : Obligations.ClrhRuns := by
  intro s ht
  have hc : check .clrh s = none := check_eq_none.2 ⟨ht, rfl, rfl, rfl⟩
  cases hm : s.params.arxMode with
  | history =>
    have hempty : hEmpty (complete { beginCommand s with hist := [], sp := 0 }) = true := (hEmpty_iff _).2 (.inr rfl)
    exact exec_endsWell hc (bodyClrh_history hm) ⟨rfl, rfl, ⟨rfl, rfl⟩, hempty, stack_eq_nil_of_hEmpty hempty,
      hRoom_of_hEmpty hempty, fun _ => ⟨rfl, rfl⟩, nofun⟩
  | stateless =>
    have hempty : hEmpty (complete (beginCommand s)) = true := (hEmpty_iff _).2 (.inl hm)
    exact exec_endsWell hc (bodyClrh_stateless hm) ⟨rfl, rfl, ⟨rfl, rfl⟩, hempty, stack_eq_nil_of_hEmpty hempty,
      hRoom_of_hEmpty hempty, nofun, fun _ => ⟨rfl, rfl⟩⟩

end effects

end Sys2Proof.Machine
end

section
/-! SUPPORT. The errors (rules R231, R261 to R263): which error a command ends with, that an error changes nothing but the
status, and the step at which there is no command to run (rule R269). -/

namespace Sys2Proof.Machine

variable {i : Instr} {s t : State} {e : ErrCode}

/-- The error of a command, from any next state in which the command ends with it: there is one next state only. -/
theorem err_of_endsWith (h : exec i s = .next t) (he : ∃ u, exec i s = .next u ∧ EndsWith e s u) : t.err = errBits e := by
  obtain ⟨u, hu, hends⟩ := he
  cases hu.symm.trans h
  exact hends.err

/-- Only ENC needs room on the stack (rule R231). -/
theorem historyRoom_iff : historyRoom i s = true ↔ (i = .enc → hRoom s = true) := by
  cases i <;> simp [historyRoom]

/-- Past the checks a command ends without error, or it is a DEC that lacks its records (rules R207, R263). -/
theorem exec_err_of_check_none (hc : check i s = none) (h : exec i s = .next t) :
    t.err = 0 ∨ (i = .dec ∧ s.params.arxMode = .history ∧ t.err = errBits .nohist) := by
  rcases exec_cases i s with ⟨e, hsome, -⟩ | ⟨e, -, hb, he⟩ | ⟨u, -, -, he⟩
  · cases hc.symm.trans hsome
  · cases he.symm.trans h
    obtain ⟨rfl, hdec, hm⟩ := body_error hc hb
    exact .inr ⟨hdec, hm, rfl⟩
  · cases he.symm.trans h
    exact .inl rfl

/-- Settles O22: the first four errors are those of the checks, in their order; past these only the body of a DEC raises. -/
theorem errorPriority : Obligations.ErrorPriority := by
  intro i s t h
  refine ⟨fun ht => ?_, fun ht hl => ?_, fun ht hl hk => ?_, fun ht _ hk hi hr => ?_, fun ht hl hk hroom => ?_⟩
  · exact err_of_endsWith h (tableErrorStopsEveryCommand i s ht)
  · exact err_of_endsWith h (illegalRuns i s hl ht)
  · exact err_of_endsWith h (exec_nokey ht hl hk)
  · subst hi
    exact err_of_endsWith h ⟨_, exec_checkError (check_enc_hovf ht hk hr), endsWith_raise .hovf s⟩
  · exact exec_err_of_check_none (check_eq_none.2 ⟨ht, hl, hk, historyRoom_iff.2 hroom⟩) h

/-- Settles O23: of the two ways a command can end, only `raise` leaves `ERR` other than 0, and it writes nothing else but
the rest of the status. -/
theorem errorsArePrecise : Obligations.ErrorsArePrecise := by
  intro i s t h hne
  rcases exec_next_cases h with ⟨e, rfl⟩ | ⟨u, rfl, -⟩
  · exact ⟨e, endsWith_raise e s⟩
  · exact absurd (complete_err u) hne

/-- Settles O7: of the cases of a step, no reset, an idle engine and `start = 0` leave the last. -/
theorem idleStepWaits : Obligations.IdleStepWaits := by
  intro s hr hf hs
  rcases step_cases s with ⟨hr', -⟩ | ⟨-, hi, -⟩ | ⟨-, -, hs', -⟩ | ⟨-, -, -, e⟩
  · exact nomatch hr.symm.trans hr'
  · exact absurd hf hi
  · exact nomatch hs.symm.trans hs'
  · exact e

end Sys2Proof.Machine
end

section
/-! SUPPORT. Tables and the command step: a bijection found from one side only (rule R124), the weight of a gathered word
(rule R128), and the step that accepts a command (rule R98). -/

namespace Sys2Proof.Machine

/-- Settles O37: the nibbles and the bit positions are finite, so (S1) gives (S2) and (P1) gives (P2). -/
theorem oneSidedTablesSuffice : Obligations.OneSidedTablesSuffice := fun _ s1 p1 =>
  ⟨s1, Function.LeftInverse.rightInverse_of_card_le s1 le_rfl, p1, Function.LeftInverse.rightInverse_of_card_le p1 le_rfl⟩

/-- The input positions that a gather reads, in the order of its output bits (rules R128, R129). -/
def gatherPositions (p : BitPos → BitPos) : List Nat := (List.range 32).map fun i => (p (BitVec.ofNat 5 i)).toNat

/-- Every position read is one of the 32. -/
theorem gatherPositions_subset (p : BitPos → BitPos) : gatherPositions p ⊆ List.range 32 := by
  intro n hn
  obtain ⟨i, -, rfl⟩ := List.mem_map.1 hn
  exact List.mem_range.2 (p _).isLt

/-- An injective table reads no position twice. -/
theorem nodup_gatherPositions {p : BitPos → BitPos} (hp : Function.Injective p) : (gatherPositions p).Nodup := by
  refine List.nodup_range.map_on fun i hi j hj h => ?_
  have hij : BitVec.ofNat 5 i = BitVec.ofNat 5 j := hp (BitVec.eq_of_toNat_eq h)
  rw [List.mem_range] at hi hj
  simpa [Nat.mod_eq_of_lt hi, Nat.mod_eq_of_lt hj] using congrArg BitVec.toNat hij

/-- So it reads the 32 positions, each once. -/
theorem gatherPositions_perm {p : BitPos → BitPos} (hp : Function.Injective p) :
    (gatherPositions p).Perm (List.range 32) :=
  ((nodup_gatherPositions hp).subperm (gatherPositions_subset p)).perm_of_length_le (by simp [gatherPositions])

/-- The 1 bits of a gathered word are the 1 bits at the positions read. -/
theorem countP_gatherWord (p : BitPos → BitPos) (w : Word32) :
    ((List.range 32).countP fun i => (gatherWord p w).getLsbD i) = (gatherPositions p).countP fun i => w.getLsbD i := by
  rw [gatherPositions, List.countP_map]
  exact List.countP_congr fun i hi => by rw [getLsbD_gatherWord p w i (List.mem_range.1 hi), Function.comp_apply]

/-- Settles O35: by (P1) `PERM` is injective, so the positions `PermBits` reads are a permutation of all 32. -/
theorem permutationKeepsWeight : Obligations.PermutationKeepsWeight := by
  rintro t w ⟨-, -, p1, -⟩
  have hp : Function.Injective (permAt t) := Function.LeftInverse.injective p1
  exact (countP_gatherWord (permAt t) w).trans ((gatherPositions_perm hp).countP_eq _)

/-- Settles O6: of the cases of a step, no reset, an idle engine and `start = 1` leave the one that runs a command. -/
theorem stepRunsDecodedCommand : Obligations.StepRunsDecodedCommand := by
  intro s hr hf hs
  rcases step_cases s with ⟨hr', -⟩ | ⟨-, hi, -⟩ | ⟨-, -, -, t, ht, e⟩ | ⟨-, -, hs', -⟩
  · exact nomatch hr.symm.trans hr'
  · exact absurd hf hi
  · rw [e, ht, onNext]
  · exact nomatch hs.symm.trans hs'

end Sys2Proof.Machine
end
